-- ==== Sys2Proof/Word.lean ====
section
/-! DEFINITION. The word types of the hardware and its plainest arithmetic.
Every value the hardware stores or carries is a bit vector with bit 0 the least significant bit (R6);
a 128-bit component is read as signed two's complement with `BitVec.toInt` (R7). -/

namespace Sys2Proof

/-- A 128-bit value: a digit string, a component of a Gaussian integer, or an operand port (R5, R45). -/
abbrev Word := BitVec 128

/-- An 8-bit value: the command word, `STATUS`, `LEN_OUT`, `IDX`, a lane element (R5, R25, R27, R33, R41). -/
abbrev Byte := BitVec 8

end Sys2Proof
end

