-- ==== Sys2Proof/Config.lean ====
section
/-! DEFINITION. The parameters the spec fixes (R5), the names its enumerated registers take (R33, R200, R201),
the two parameters it leaves OPEN (D18, D20) and the free values that stand for the registers a reset event
leaves unspecified (R43, R230, U3). -/

namespace Sys2Proof

/-- `PHASE`: whether a command is in progress (R33; assumption log 5). -/
inductive Phase where
  | idle
  | run
deriving DecidableEq, Repr, Inhabited

/-- `OP`: the decoded command (R33, R83; assumption log 5). -/
inductive Op where
  | fs
  | fb
  | fr
  | iv
  | bad
deriving DecidableEq, Repr, Inhabited

/-- The two error classes of the hardware, and there are no others (R202). -/
inductive CommandError where
  | invalidVariant
  | representationOverflow
deriving DecidableEq, Repr

/-- What the host can see of the hardware's boundary (R20): the ports and the response registers. It indexes
the open parameter `REG_MAP`. -/
inductive HostRegister where
  | reqValid
  | reqReady
  | reqCmd
  | reqA
  | reqB
  | rspValid
  | status
  | reOut
  | imOut
  | qOut
  | lenOut
deriving DecidableEq, Repr

namespace Config

/-- NG, the number of groups of a digit string (R5). -/
def groups : Nat := 16

/-- GB, bits per group, which is also LANES (R5). -/
def groupBits : Nat := 8

/-- NDIG, the digits of a digit string, and the cap on the iterations of INV (R5, R170). -/
def digits : Nat := 128

/-- `CYCLES_PER_STEP`, OPEN: clock cycles of one sequencer step (D20; assumption log 8). No rule, and nothing in
this model, reads it. -/
opaque cyclesPerStep : Nat

/-- `REG_MAP`, OPEN: the address a platform wrapper gives each port or response register (R66, D18;
assumption log 8). No rule, and nothing in this model, reads it. -/
opaque regMap : HostRegister → Nat

/-- Free 128-bit values: what a reset event leaves in `RE_OUT`, `IM_OUT`, `Q_OUT`, `DREG`, `SCALE`, `PWR`, `QREG`,
`ACC.RE`, `ACC.IM` (R43, U3 "any value"; assumption log 2). -/
opaque freeWord : Nat → Word

/-- Free 8-bit values: `LEN_OUT` and `IDX` after a reset event (R43; assumption log 2). -/
opaque freeByte : Nat → Byte

/-- A free command name: `OP` after a reset event (R43; assumption log 2). -/
opaque freeOp : Nat → Op

/-- A free 2-bit value: `ERRW` after a reset event (R43; assumption log 2). -/
opaque freeErr : Nat → BitVec 2

/-- A free flag: `ACC.OVF` after a reset event (R43; assumption log 2). -/
opaque freeFlag : Nat → Bool

end Config
end Sys2Proof
end

