-- ==== Sys2Proof/Syntax.lean ====
section
/-! DEFINITION. The commands: one constructor for each row of spec/opcode_table.json, and the request triple that
carries a command to the hardware (R80). -/

namespace Sys2Proof

/-- A command with the operands its direction reads (R22, R86, R89). A forward command carries the digit string
`d = REQ_A` and no second operand, because it ignores `REQ_B` (R22, U6). -/
inductive Instr where
  /-- `FWD.SCALAR d` (R130). -/
  | fwdScalar (d : Word)
  /-- `FWD.BATCH d` (R140). -/
  | fwdBatch (d : Word)
  /-- `FWD.RECUR d` (R160). -/
  | fwdRecur (d : Word)
  /-- `INV re, im` (R170). -/
  | inv (re im : Word)
deriving DecidableEq, Repr

/-- The triple sampled at acceptance: the command word and the two operands (R80). -/
structure Request where
  cmd : Byte
  a : Word
  b : Word
deriving DecidableEq, Repr

end Sys2Proof
end

