-- ==== Sys2Proof/WellFormed.lean ====
section
/-! DEFINITION. What is well formed before anything runs: a request whose command word the opcode map defines
(R82, R84), and a line of the listing syntax whose numbers fit the fields they are written into (R89).
An `Instr` has no ill-formed term: "Operand values are never illegal" (R85), and each constructor is a defined
command word, so no check is made of it. -/

namespace Sys2Proof

/-- The command words the opcode map defines (R82). -/
def definedCommandWords : List Byte := [0x00, 0x01, 0x02, 0x80]

/-- A request is well formed when its command word is one of the four defined ones; its operands are never illegal
(R84, R85). -/
def Request.wf (r : Request) : Bool := definedCommandWords.contains r.cmd

/-- A line of the listing syntax (R89). Operands are the written integers; `fwd` is the one pseudo-instruction and
`cmd` the raw form. -/
inductive Line where
  | fwdScalar (d : Int)
  | fwdBatch (d : Int)
  | fwdRecur (d : Int)
  | fwd (d : Int)
  | inv (re im : Int)
  | cmd (word : Nat) (a b : Int)
deriving DecidableEq, Repr

/-- A written operand stands for a 128-bit pattern: an unsigned one up to `2^128 - 1`, or a negative one down to
`-2^127` (R89, R7; assumption log 13). -/
def operandFits (v : Int) : Bool :=
  decide (-0x80000000000000000000000000000000 ≤ v) && decide (v < 0x100000000000000000000000000000000)

/-- The numbers of a line fit their fields (R89). The raw form may name any command word of 8 bits, defined or not. -/
def Line.wf : Line → Bool
  | .fwdScalar d => operandFits d
  | .fwdBatch d => operandFits d
  | .fwdRecur d => operandFits d
  | .fwd d => operandFits d
  | .inv re im => operandFits re && operandFits im
  | .cmd word a b => decide (word < 256) && operandFits a && operandFits b

end Sys2Proof
end

