-- ==== Sys2Proof/Decode.lean ====
section
/-! DEFINITION. Decoding, total on all requests and rejecting undefined command words by name (R81 to R86), and after
it the encoder, the 264-bit record notation (R80), the listing syntax's assembler (R89) and the reader of the opcode
table's words. -/

namespace Sys2Proof

/-- Why a request is no command: its command word selects a variant that is not defined (R84, R200). -/
inductive DecodeError where
  | invalidVariant (cmd : Byte)
deriving DecidableEq, Repr

/-- Field DIR, bit 7 of the command word: false forward, true inverse (R81). -/
def cmdDir (cmd : Byte) : Bool := cmd.getLsbD 7

/-- Field VAR, bits 6:0 of the command word (R81). -/
def cmdVar (cmd : Byte) : BitVec 7 := cmd.extractLsb' 0 7

/-- The decode function, total on the 256 command words and reading nothing else (R83). -/
def decodeOp (cmd : Byte) : Op :=
  if cmdDir cmd = false ∧ cmdVar cmd = 0 then .fs
  else if cmdDir cmd = false ∧ cmdVar cmd = 1 then .fb
  else if cmdDir cmd = false ∧ cmdVar cmd = 2 then .fr
  else if cmdDir cmd = true ∧ cmdVar cmd = 0 then .iv
  else .bad

/-- The 3-bit coding of `OP` (R33). The model holds the name; no rule reads the code. -/
def opCode : Op → BitVec 3
  | .fs => 0
  | .fb => 1
  | .fr => 2
  | .iv => 4
  | .bad => 7

/-- The 1-bit coding of `PHASE` (R33). -/
def phaseCode : Phase → BitVec 1
  | .idle => 0
  | .run => 1

/-- The command a request stands for. The operands are the whole port values, taken unchanged, and a forward command
drops `REQ_B` (R82, R86, U6). -/
def decode (r : Request) : Except DecodeError Instr :=
  match decodeOp r.cmd with
  | .fs => .ok (.fwdScalar r.a)
  | .fb => .ok (.fwdBatch r.a)
  | .fr => .ok (.fwdRecur r.a)
  | .iv => .ok (.inv r.a r.b)
  | .bad => .error (.invalidVariant r.cmd)

/-- The command word of a command (R82, R89). -/
def commandWord : Instr → Byte
  | .fwdScalar _ => 0x00
  | .fwdBatch _ => 0x01
  | .fwdRecur _ => 0x02
  | .inv _ _ => 0x80

/-- The request that carries a command; "`REQ_B` not written means 0" (R89). -/
def encode : Instr → Request
  | .fwdScalar d => ⟨0x00, d, 0⟩
  | .fwdBatch d => ⟨0x01, d, 0⟩
  | .fwdRecur d => ⟨0x02, d, 0⟩
  | .inv re im => ⟨0x80, re, im⟩

/-- The 264-bit record of a request: CMD in bits 263:256, B in 255:128, A in 127:0 (R80). -/
def Request.record (r : Request) : BitVec 264 := r.cmd ++ r.b ++ r.a

/-- The request a 264-bit record writes down (R80). -/
def requestOfRecord (w : BitVec 264) : Request :=
  ⟨w.extractLsb' 256 8, w.extractLsb' 0 128, w.extractLsb' 128 128⟩

/-- Decoding of the 264-bit record. -/
def decodeRecord (w : BitVec 264) : Except DecodeError Instr := decode (requestOfRecord w)

/-- The 264-bit record of a command. -/
def encodeRecord (i : Instr) : BitVec 264 := (encode i).record

/-- The pattern a written operand stands for (R89). -/
def operandPattern (v : Int) : Word := BitVec.ofInt 128 v

/-- The request a line of the listing syntax stands for; `FWD d` is `FWD.SCALAR d` (R89). -/
def assemble : Line → Request
  | .fwdScalar d => ⟨0x00, operandPattern d, 0⟩
  | .fwdBatch d => ⟨0x01, operandPattern d, 0⟩
  | .fwdRecur d => ⟨0x02, operandPattern d, 0⟩
  | .fwd d => ⟨0x00, operandPattern d, 0⟩
  | .inv re im => ⟨0x80, operandPattern re, operandPattern im⟩
  | .cmd word a b => ⟨BitVec.ofNat 8 word, operandPattern a, operandPattern b⟩

/-- The request whose bits an opcode-table word gives: the command word is the first word (bits 7:0) and the operands
count on from it, A before B (R88; assumption log 9). The table gives 8 bits, so both operands are 0. -/
def requestOfTableWord (nbits w : Nat) : Request :=
  let bits := w % (1 <<< nbits)
  ⟨BitVec.ofNat 8 bits, BitVec.ofNat 128 (bits >>> 8), BitVec.ofNat 128 (bits >>> 136)⟩

/-- The command this decoder reads from an instruction whose bits are `w`, numbered as spec/opcode_table.json numbers
them; none where the command word is undefined. -/
def decodeTableWord (nbits w : Nat) : Option Instr := (decode (requestOfTableWord nbits w)).toOption

end Sys2Proof
end

