-- ==== Sys2Proof/Machine/State.lean ====
section
/-! DEFINITION. The state of the hardware, whole, as R20 lists it, with the ports it samples (R21, R230); the reasons a
step may stop; and the state right after reset (R43). The Coefficient Table and its rows are constants, hardwired and
not writable (R32, R41): they stand in Machine/Table.lean, not in a field (assumption log 4). -/

namespace Sys2Proof.Machine

/-- The input ports, as they stand at the instant of the next transition (R21, R230). They belong to the host: no
transition of the hardware writes them (assumption log 3, log 12). -/
structure Ports where
  /-- `RST`, the reset input (R230; assumption log 7). -/
  rst : Bool
  /-- `REQ_VALID` (R21). -/
  reqValid : Bool
  /-- `REQ_CMD` (R21). -/
  reqCmd : Byte
  /-- `REQ_A` (R21). -/
  reqA : Word
  /-- `REQ_B` (R21). -/
  reqB : Word
deriving DecidableEq, Repr

/-- The six response registers (R23). -/
structure Response where
  /-- `RSP_VALID` (R24). -/
  valid : Bool
  /-- `STATUS` (R25). -/
  status : Byte
  /-- `RE_OUT` (R26). -/
  re : Word
  /-- `IM_OUT` (R26). -/
  im : Word
  /-- `Q_OUT` (R28). -/
  q : Word
  /-- `LEN_OUT` (R27). -/
  len : Byte
deriving DecidableEq, Repr

/-- The complex accumulator CA (R31, R100). -/
structure Acc where
  /-- `ACC.RE` -/
  re : Word
  /-- `ACC.IM` -/
  im : Word
  /-- `ACC.OVF`, the overflow-detected flag (R101). -/
  ovf : Bool
deriving DecidableEq, Repr

end Sys2Proof.Machine

namespace Sys2Proof.Machine

/-- Everything the spec gives the machine (R20), and one counter of the model's own. -/
structure State where
  /-- The input ports (R21, R230). -/
  ports : Ports
  /-- The response registers (R23 to R28). -/
  rsp : Response
  /-- `PHASE` (R33). -/
  phase : Phase
  /-- `OP` (R33). -/
  op : Op
  /-- `IDX` (R33, R38). -/
  idx : Byte
  /-- `ERRW` (R33). -/
  errw : BitVec 2
  /-- `DREG` (R30). -/
  dreg : Word
  /-- `SCALE` (R30, R123). -/
  scale : Word
  /-- `PWR.RE` (R30). -/
  pwrRe : Word
  /-- `PWR.IM` (R30). -/
  pwrIm : Word
  /-- `QREG` (R30). -/
  qreg : Word
  /-- The complex accumulator (R31). -/
  acc : Acc
  /-- MODEL'S OWN: how many free values have been drawn. A reset event reads and advances it (assumption log 2). -/
  freeCount : Nat
deriving DecidableEq, Repr

/-- Faults that stop the machine: none. "There is no illegal-operand error, no alignment error, no access fault and no
arithmetic trap" (R202), and every error is reported in a response (R204). -/
inductive Fault where
deriving DecidableEq, Repr

/-- Refusals. -/
inductive Refusal where
  /-- Raised by an arm of `exec` that has no meaning yet; no arm of this model does. Safe: the machine stops. -/
  | notModelled (mnemonic : String)
  /-- Raised by `hostRead`, the host's read of the response registers, while `RSP_VALID = 0`: "A model should refuse
  such a read" (R44, R238). No step raises it. Safe: the read gives no value. -/
  | responseNotValid
deriving DecidableEq, Repr

/-- The machine right after reset (R43): `PHASE = IDLE`, `RSP_VALID = 0`, `STATUS = 0x00`. Every register R43 leaves
unspecified is zero here, a DESIGN CHOICE (assumption log 1); the host drives no request and no reset (log 3), and no free
value has been drawn (log 2). -/
def State.reset : State where
  ports := { rst := false, reqValid := false, reqCmd := 0, reqA := 0, reqB := 0 }
  rsp := { valid := false, status := 0, re := 0, im := 0, q := 0, len := 0 }
  phase := .idle
  op := .fs
  idx := 0
  errw := 0
  dreg := 0
  scale := 0
  pwrRe := 0
  pwrIm := 0
  qreg := 0
  acc := { re := 0, im := 0, ovf := false }
  freeCount := 0

end Sys2Proof.Machine
end

