-- ==== Sys2Proof/Machine/Arith.lean ====
section
/-! DEFINITION. The spec's notation as functions: wraparound (R8), bit length (R9), and the Gaussian integers and powers
of `b = -1 + i` in which the commands' results are stated (R10). -/

namespace Sys2Proof.Machine

/-- `SMIN = -2^127` (R7). -/
def smin : Int := -0x80000000000000000000000000000000

/-- `SMAX = 2^127 - 1` (R7). -/
def smax : Int := 0x7FFFFFFFFFFFFFFFFFFFFFFFFFFFFFFF

/-- `wrap128(v) = ((v + 2^127) mod 2^128) - 2^127` (R8). -/
def wrap128 (v : Int) : Int :=
  (v + 0x80000000000000000000000000000000) % 0x100000000000000000000000000000000 - 0x80000000000000000000000000000000

/-- The 128-bit pattern stored when the exact integer `v` is written to a register (R8). -/
def store (v : Int) : Word := BitVec.ofInt 128 (wrap128 v)

/-- `bitlen(q)`: 0 if `q = 0`, else 1 + the index of the highest set bit (R9). -/
def bitlen (q : Word) : Nat := if q = 0 then 0 else Nat.log2 q.toNat + 1

/-- A Gaussian integer `re + im·i`, with exact components (R10). -/
structure Gauss where
  re : Int
  im : Int
deriving DecidableEq, Repr

/-- The sum of two Gaussian integers. -/
def Gauss.add (x y : Gauss) : Gauss := ⟨x.re + y.re, x.im + y.im⟩

/-- The product of two Gaussian integers, from `i² = -1` (R10). -/
def Gauss.mul (x y : Gauss) : Gauss := ⟨x.re * y.re - x.im * y.im, x.re * y.im + x.im * y.re⟩

/-- Multiplication by b: `(re, im)·b = (-re - im, re - im)` (R10). -/
def Gauss.mulB (x : Gauss) : Gauss := ⟨-x.re - x.im, x.re - x.im⟩

/-- `norm(re, im) = re² + im²` (R10). -/
def Gauss.norm (x : Gauss) : Int := x.re * x.re + x.im * x.im

/-- `b^k` (R10). -/
def powB : Nat → Gauss
  | 0 => ⟨1, 0⟩
  | k + 1 => (powB k).mulB

/-- `Σ_{k < n} d[k]·b^k`, the value of the lowest `n` digits of `d` (R10, and the loop invariants of R132, R163, R179). -/
def digitSum (d : Word) : Nat → Gauss
  | 0 => ⟨0, 0⟩
  | n + 1 => if d.getLsbD n then (digitSum d n).add (powB n) else digitSum d n

/-- `value(d)`, the Gaussian integer a digit string denotes (R10). -/
def value (d : Word) : Gauss := digitSum d 128

/-- The Gaussian integer that a pair of 128-bit patterns holds, each read as signed (R7, R86). -/
def gaussOf (re im : Word) : Gauss := ⟨re.toInt, im.toInt⟩

/-- The Gaussian integer the accumulator holds (R31). -/
def Acc.gauss (a : Acc) : Gauss := gaussOf a.re a.im

/-- `K = (2^64 - 1)/15` (R111). -/
def boundK : Int := 1229782938247303441

end Sys2Proof.Machine
end

