-- ==== Sys2Proof/Machine/Flags.lean ====
section
/-! DEFINITION. The two flags and the status word: the overflow tests (R104, R105, D7), the error codes (R200, R201) and
the fields of `STATUS` (R25). -/

namespace Sys2Proof.Machine

/-- The exact integer does not fit in a signed 128-bit register: `v != wrap128(v)` (R101, R104, R105). -/
def overflows (v : Int) : Bool := v != wrap128 v

/-- The overflow test of one component of `acc_add` in gate terms: "both addends have the same sign bit and the 128-bit
sum has the other sign bit" (R104). The machine uses the range test; that the two agree is a statement. -/
def gateOverflow (x y : Word) : Bool := (x.msb == y.msb) && ((x + y).msb != x.msb)

/-- The code of an error in `STATUS.ERR` and `ERRW` (R25, R200, R201). -/
def errorCode : CommandError → BitVec 2
  | .invalidVariant => 1
  | .representationOverflow => 2

/-- `{00000, OVF, ERR[1:0]}` (R37). -/
def statusWord (ovf : Bool) (err : BitVec 2) : Byte := 0#5 ++ BitVec.ofBool ovf ++ err

/-- `STATUS.ERR`, bits 1:0 (R25). -/
def statusErr (status : Byte) : BitVec 2 := status.extractLsb' 0 2

/-- `STATUS.OVF`, bit 2 (R25). -/
def statusOvf (status : Byte) : Bool := status.getLsbD 2

/-- The error class that a value of `STATUS.ERR` reports; 0 reports none and 3 is never produced (R25, R202). -/
def errorOf (err : BitVec 2) : Option CommandError :=
  if err = 1 then some .invalidVariant
  else if err = 2 then some .representationOverflow
  else none

end Sys2Proof.Machine
end

