-- ==== Sys2Proof/Machine/Table.lean ====
section
/-! DEFINITION. The Coefficient Table (R120), its lookup (R122) and the two coefficient rows of FWD.BATCH (R141):
constants, hardwired, with their values at all times (R32, R125). -/

namespace Sys2Proof.Machine

/-- A sign in {-1, 0, +1} (R32). -/
inductive Sign where
  | minus
  | zero
  | plus
deriving DecidableEq, Repr

/-- An entry `(P, SR, SI)`: the power multiplier and the signs of the two contributions (R32, R120). -/
structure Coefficient where
  p : BitVec 4
  sr : Sign
  si : Sign
deriving DecidableEq, Repr

/-- The contents of the table (R120). -/
def coefficientTable : Fin 8 → Coefficient
  | 0 => ⟨1, .plus, .zero⟩
  | 1 => ⟨1, .minus, .plus⟩
  | 2 => ⟨2, .zero, .minus⟩
  | 3 => ⟨2, .plus, .plus⟩
  | 4 => ⟨4, .minus, .zero⟩
  | 5 => ⟨4, .plus, .minus⟩
  | 6 => ⟨8, .zero, .plus⟩
  | 7 => ⟨8, .minus, .minus⟩

/-- `sign · power`: `+power`, 0 or `-power` as a signed 128-bit value (R122, R112). -/
def Sign.apply (s : Sign) (power : Word) : Word :=
  match s with
  | .minus => -power
  | .zero => 0
  | .plus => power

/-- `ct_contrib(j, s)`: the contribution of a set bit at position `j` of a group whose scale is `s` (R122). -/
def ctContrib (j : Fin 8) (s : Word) : Word × Word :=
  let entry := coefficientTable j
  let power := entry.p.zeroExtend 128 * s
  (entry.sr.apply power, entry.si.apply power)

/-- `RROW`, eight signed 8-bit elements (R141). -/
def realRow : Fin 8 → Byte
  | 0 => 1
  | 1 => -1
  | 2 => 0
  | 3 => 2
  | 4 => -4
  | 5 => 4
  | 6 => 0
  | 7 => -8

/-- `IROW`, eight signed 8-bit elements (R141). -/
def imagRow : Fin 8 → Byte
  | 0 => 0
  | 1 => 1
  | 2 => -2
  | 3 => 2
  | 4 => 0
  | 5 => -4
  | 6 => 8
  | 7 => -8

end Sys2Proof.Machine
end

