-- ==== Sys2Proof/Machine/Operands.lean ====
section
/-! DEFINITION. The forms in which the commands read their operands: bits, groups and lanes of the digit string
(R61, R62, R142), the byte order of a wrapper (R63), and the packed operation of FWD.BATCH (R144, R145). -/

namespace Sys2Proof.Machine

/-- The bit positions of a group, ascending (R62, R133). -/
def bitPositions : List (Fin 8) := [0, 1, 2, 3, 4, 5, 6, 7]

/-- The groups of a digit string, ascending (R130, R133). -/
def groupIndexes : List Nat := [0, 1, 2, 3, 4, 5, 6, 7, 8, 9, 10, 11, 12, 13, 14, 15]

/-- Bit `j` of group `g`: `d[8g + j]` (R62). -/
def groupBit (d : Word) (g : Nat) (j : Fin 8) : Bool := d.getLsbD (8 * g + j)

/-- Group `g` as a field, `d[8g+7 : 8g]` (R62). It is also byte `g` of a little-endian wrapper (R63). -/
def group (d : Word) (g : Nat) : Byte := d.extractLsb' (8 * g) 8

/-- `LANE[j] = zext_8(d[8g + j])` (R142). -/
def lane (d : Word) (g : Nat) (j : Fin 8) : Byte := (BitVec.ofBool (groupBit d g j)).zeroExtend 8

/-- One product of the packed operation: signed 16-bit, `sext_16(ROW[j]) * zext_16(LANE[j])` (R144). -/
def laneProduct (row lanes : Fin 8 → Byte) (j : Fin 8) : BitVec 16 :=
  (row j).signExtend 16 * (lanes j).zeroExtend 16

/-- `dot8(ROW, LANE)`: the products, then the pairwise tree of signed 32-bit adds (R144). -/
def dot8 (row lanes : Fin 8 → Byte) : BitVec 32 :=
  let prod := fun j => (laneProduct row lanes j).signExtend 32
  let t0 := prod 0 + prod 1
  let t1 := prod 2 + prod 3
  let t2 := prod 4 + prod 5
  let t3 := prod 6 + prod 7
  (t0 + t1) + (t2 + t3)

/-- The 32-bit scalar of a group, sign-extended to 128 bits and only then shifted left by `4·g` (R143, R145). -/
def shiftScalar (v : BitVec 32) (g : Nat) : Word := (v.signExtend 128) <<< (4 * g)

end Sys2Proof.Machine
end

