-- ==== Sys2Proof/Machine/Ops.lean ====
section
/-! DEFINITION. The named operations over the registers: the six micro-operations of the complex accumulator
(R102 to R107), acceptance (R36), completion (R37), raising an error, which ends the command and is all the hardware has
in place of taking an exception (R204 to R206), and the reset event (R43, R230). -/

namespace Sys2Proof.Machine

/-- `acc_clear()` (R102). -/
def accClear : Acc := ⟨0, 0, false⟩

/-- `acc_load(re, im)` (R103). -/
def accLoad (re im : Word) : Acc := ⟨re, im, false⟩

/-- `acc_add(dre, dim)` (R104): the sums wrap, nothing saturates (R109), and the flag is set when an exact sum does not
fit. -/
def accAdd (a : Acc) (dre dim : Word) : Acc :=
  let er := a.re.toInt + dre.toInt
  let ei := a.im.toInt + dim.toInt
  { re := store er, im := store ei, ovf := a.ovf || overflows er || overflows ei }

/-- `acc_divb(c)` (R105): the accumulator becomes `(z - c)/b`, unless a numerator does not fit, in which case the flag is
set and the pair is kept. -/
def accDivb (a : Acc) (c : Bool) : Acc :=
  let x := a.re.toInt
  let y := a.im.toInt
  let n1 := y - x + (if c then 1 else 0)
  let n2 := -x - y + (if c then 1 else 0)
  if overflows n1 || overflows n2 then { a with ovf := true }
  else { a with re := store (n1 / 2), im := store (n2 / 2) }

/-- `acc_is_zero()` (R106). -/
def accIsZero (a : Acc) : Bool := (a.re == 0) && (a.im == 0)

/-- `acc_parity() = ACC.RE[0] xor ACC.IM[0]`, the digit (R107). -/
def accParity (a : Acc) : Bool := a.re.getLsbD 0 ^^ a.im.getLsbD 0

/-- The three port values sampled at acceptance (R21, R65). -/
def sampleRequest (s : State) : Request := ⟨s.ports.reqCmd, s.ports.reqA, s.ports.reqB⟩

/-- Acceptance of a request whose command word decodes to `op`, with `REQ_A = a` and `REQ_B = b` (R36). The five data
registers of the response are not changed, only `RSP_VALID` (R36, R238). -/
def accept (op : Op) (a b : Word) (s : State) : State :=
  { s with
    rsp := { s.rsp with valid := false }
    op := op
    dreg := a
    scale := 1
    pwrRe := -1
    pwrIm := 1
    qreg := 0
    idx := 0
    errw := 0
    acc := if op = .iv then accLoad a b else accClear
    phase := .run }

/-- Completion, the one transition that ends every command (R37). -/
def complete (s : State) : State :=
  { s with
    rsp :=
      { valid := true
        status := statusWord s.acc.ovf s.errw
        re := s.acc.re
        im := s.acc.im
        q := s.qreg
        len := BitVec.ofNat 8 (bitlen s.qreg) }
    phase := .idle }

/-- `raise <Error>`: end the current command with the named error, through the ordinary completion (R9, R204). It
redirects nothing and saves nothing, and there is nothing to return from (R204, R209). -/
def raiseError (e : CommandError) (s : State) : State := complete { s with errw := errorCode e }

/-- The reset event (R43, R230): `PHASE`, `RSP_VALID` and `STATUS` take their reset values, and every other register
becomes unspecified, that is a free value (U3; assumption log 2). The ports are the host's. -/
def resetEvent (s : State) : State :=
  let n := s.freeCount
  { ports := s.ports
    rsp :=
      { valid := false
        status := 0
        re := Config.freeWord n
        im := Config.freeWord (n + 1)
        q := Config.freeWord (n + 2)
        len := Config.freeByte n }
    phase := .idle
    op := Config.freeOp n
    idx := Config.freeByte (n + 1)
    errw := Config.freeErr n
    dreg := Config.freeWord (n + 3)
    scale := Config.freeWord (n + 4)
    pwrRe := Config.freeWord (n + 5)
    pwrIm := Config.freeWord (n + 6)
    qreg := Config.freeWord (n + 7)
    acc := ⟨Config.freeWord (n + 8), Config.freeWord (n + 9), Config.freeFlag n⟩
    freeCount := n + 10 }

end Sys2Proof.Machine
end

