-- ==== Sys2Proof/Machine/FwdBatch.lean ====
section
/-! DEFINITION. FWD.BATCH, executed by gaussian_forward_batch_simd (43_forward_batch_simd.md). -/

namespace Sys2Proof.Machine

/-- One group pass: the two dot products of the group's lanes, shifted left by `4·g`, are added once (R143). -/
def fbGroupPass (d : Word) (g : Nat) (a : Acc) : Acc :=
  accAdd a (shiftScalar (dot8 realRow (lane d g)) g) (shiftScalar (dot8 imagRow (lane d g)) g)

/-- The loop of the command rule: 16 group passes from a clear accumulator (R140, R146). -/
def fwdBatchLoop (d : Word) : Acc :=
  groupIndexes.foldl (fun a g => fbGroupPass d g a) accClear

/-- `FWD.BATCH d`, from acceptance to completion as one transition (R140, R146; R12). `SCALE` keeps the value
acceptance wrote (R143). -/
def execFwdBatch (d : Word) (s : State) : Host.Outcome State Fault Refusal :=
  .next (complete { accept .fb d 0 s with acc := fwdBatchLoop d, idx := 16 })

end Sys2Proof.Machine
end

