-- ==== Sys2Proof/Machine/FwdRecur.lean ====
section
/-! DEFINITION. FWD.RECUR, executed by gaussian_forward_recurrence (44_forward_recurrence.md). -/

namespace Sys2Proof.Machine

/-- The values FWD.RECUR works on: the running power, the remaining digit string and the accumulator, with the bit
position `k` (R160). -/
structure Recurrence where
  pr : Word
  pi : Word
  rem : Word
  acc : Acc
  k : Nat
deriving DecidableEq, Repr

/-- `zext(c)` of one bit to 128 bits (R160, R162). -/
def bitWord (c : Bool) : Word := if c then 1 else 0

/-- The base cases: `acc_add(zext(d[0]) - zext(d[1]), zext(d[1]))` (R162). -/
def frBaseAcc (d : Word) (a : Acc) : Acc :=
  accAdd a (bitWord (d.getLsbD 0) - bitWord (d.getLsbD 1)) (bitWord (d.getLsbD 1))

/-- One iteration: the power is multiplied by b from its values before the update, and is added if the bit is set
(R163). -/
def frIteration (r : Recurrence) : Recurrence :=
  let npr := store (-r.pr.toInt - r.pi.toInt)
  let npi := store (r.pr.toInt - r.pi.toInt)
  { pr := npr
    pi := npi
    rem := r.rem >>> 1
    acc := if r.rem.getLsbD 0 then accAdd r.acc npr npi else r.acc
    k := r.k + 1 }

/-- The loop `while rem != 0`, with the early exit (R160, R164). The first argument bounds the iterations. -/
def frLoop : Nat → Recurrence → Recurrence
  | 0, r => r
  | n + 1, r => if r.rem = 0 then r else frLoop n (frIteration r)

/-- The values before the first iteration: the base cases done, the power at `b^1`, `rem = d >> 2`, `k = 2` (R160, R161). -/
def frStart (d : Word) : Recurrence :=
  { pr := -1, pi := 1, rem := d >>> 2, acc := frBaseAcc d accClear, k := 2 }

/-- The loop of the command rule. A digit string has 126 bits above its two lowest, so 126 iterations always suffice
(R160, R164). -/
def fwdRecurLoop (d : Word) : Recurrence := frLoop 126 (frStart d)

/-- `FWD.RECUR d`, from acceptance to completion as one transition (R160, R165; R12). -/
def execFwdRecur (d : Word) (s : State) : Host.Outcome State Fault Refusal :=
  let r := fwdRecurLoop d
  .next (complete
    { accept .fr d 0 s with
      acc := r.acc, dreg := r.rem, pwrRe := r.pr, pwrIm := r.pi, idx := BitVec.ofNat 8 r.k })

end Sys2Proof.Machine
end

