-- ==== Sys2Proof/Machine/FwdScalar.lean ====
section
/-! DEFINITION. FWD.SCALAR, executed by gaussian_forward_scalar (42_forward_scalar.md). -/

namespace Sys2Proof.Machine

/-- One group pass: every set bit of group `g`, in ascending order, adds its contribution at scale `s` (R132, R133). -/
def fsGroupPass (d : Word) (g : Nat) (s : Word) (a : Acc) : Acc :=
  bitPositions.foldl
    (fun a j => if groupBit d g j then accAdd a (ctContrib j s).1 (ctContrib j s).2 else a) a

/-- The group scale after a pass: `s ← 16·s` (R123, R132). -/
def nextScale (s : Word) : Word := 16 * s

/-- The loop of the command rule: 16 group passes from a clear accumulator and `s = 1`, with no early exit (R130, R134).
It gives the accumulator and the scale. -/
def fwdScalarLoop (d : Word) : Acc × Word :=
  groupIndexes.foldl (fun r g => (fsGroupPass d g r.2 r.1, nextScale r.2)) (accClear, 1)

/-- `FWD.SCALAR d`, from acceptance to completion as one transition (R130, R135; R12 for taking it as one). -/
def execFwdScalar (d : Word) (s : State) : Host.Outcome State Fault Refusal :=
  let r := fwdScalarLoop d
  .next (complete { accept .fs d 0 s with acc := r.1, scale := r.2, idx := 16 })

end Sys2Proof.Machine
end

