-- ==== Sys2Proof/Machine/Inverse.lean ====
section
/-! DEFINITION. INV, executed by gaussian_inverse_converter (45_inverse_converter.md). -/

namespace Sys2Proof.Machine

/-- The values INV works on: the accumulator, the digit string being built and the iteration index (R170). -/
structure Extraction where
  acc : Acc
  q : Word
  i : Nat
deriving DecidableEq, Repr

/-- `QREG[i] <- 1` (R172). -/
def setDigit (q : Word) (i : Nat) : Word := q ||| ((1 : Word) <<< i)

/-- One iteration: extract the digit, set its bit, divide by b. The index advances also when the division overflowed
(R172). -/
def ivIteration (r : Extraction) : Extraction :=
  let c := accParity r.acc
  { acc := accDivb r.acc c
    q := if c then setDigit r.q r.i else r.q
    i := r.i + 1 }

/-- The loop condition (R170, R173). -/
def ivContinues (r : Extraction) : Bool := decide (r.i < 128) && !accIsZero r.acc && !r.acc.ovf

/-- The loop of INV (R170, R173). The first argument bounds the iterations. -/
def ivLoop : Nat → Extraction → Extraction
  | 0, r => r
  | n + 1, r => if ivContinues r then ivLoop n (ivIteration r) else r

/-- The loop of the command rule, from `acc_load(real, imag)`; the cap of 128 iterations bounds it (R170, R5). -/
def invLoop (re im : Word) : Extraction := ivLoop 128 { acc := accLoad re im, q := 0, i := 0 }

/-- The final test of INV: RepresentationOverflow when overflow was detected or the accumulator is not zero (R170,
R174). -/
def ivFails (a : Acc) : Bool := a.ovf || !accIsZero a

/-- `iv_finish(); complete()`: raise RepresentationOverflow or complete (R174, R35). -/
def ivFinish (s : State) : State :=
  if ivFails s.acc then raiseError .representationOverflow s else complete s

/-- `INV re, im`, from acceptance to completion as one transition (R170, R178; R12). -/
def execInv (re im : Word) (s : State) : Host.Outcome State Fault Refusal :=
  let r := invLoop re im
  .next (ivFinish { accept .iv re im s with acc := r.acc, qreg := r.q, idx := BitVec.ofNat 8 r.i })

end Sys2Proof.Machine
end

