-- ==== Sys2Proof/Machine/Dispatch.lean ====
section
/-! DEFINITION. One arm per command, each calling its meaning. -/

namespace Sys2Proof.Machine

def exec (i : Instr) (s : State) : Host.Outcome State Fault Refusal :=
  match i with
  | .fwdScalar d => Sys2Proof.Machine.execFwdScalar d s
  | .fwdBatch d => Sys2Proof.Machine.execFwdBatch d s
  | .fwdRecur d => Sys2Proof.Machine.execFwdRecur d s
  | .inv re im => Sys2Proof.Machine.execInv re im s

end Sys2Proof.Machine
end

