-- ==== Sys2Proof/Machine/Invalid.lean ====
section
/-! DEFINITION. The 252 undefined command words: the request is accepted, no conversion is attempted, and the command
ends in the error InvalidVariant (R84, R200, R205). -/

namespace Sys2Proof.Machine

/-- A request with an undefined command word, from acceptance to completion as one transition (R205; R12). Acceptance
writes `DREG` with `REQ_A` as for every command (R29, R36), and nothing reads it. -/
def execInvalidVariant (a b : Word) (s : State) : Host.Outcome State Fault Refusal :=
  .next (raiseError .invalidVariant (accept .bad a b s))

end Sys2Proof.Machine
end

