-- ==== Sys2Proof/Machine/Sequencer.lean ====
section
/-! DEFINITION. The sequencer: one transition of the hardware while a command runs (R35), and one transition of the
hardware in any condition (R34). It is the finer of the two levels R12 describes; that a command taken as one transition
is the run of these is a statement. -/

namespace Sys2Proof.Machine

/-- The recurrence's working values as the registers hold them (R30, R163). -/
def recurrenceOf (s : State) : Recurrence :=
  { pr := s.pwrRe, pi := s.pwrIm, rem := s.dreg, acc := s.acc, k := s.idx.toNat }

/-- INV's working values as the registers hold them (R30, R172). -/
def extractionOf (s : State) : Extraction := { acc := s.acc, q := s.qreg, i := s.idx.toNat }

/-- `fs_group_pass(IDX); IDX <- IDX + 1` (R132, R35). -/
def fsStep (s : State) : State :=
  { s with
    acc := fsGroupPass s.dreg s.idx.toNat s.scale s.acc
    scale := nextScale s.scale
    idx := s.idx + 1 }

/-- `fb_group_pass(IDX); IDX <- IDX + 1` (R143, R35). -/
def fbStep (s : State) : State :=
  { s with acc := fbGroupPass s.dreg s.idx.toNat s.acc, idx := s.idx + 1 }

/-- `fr_base_cases()`, which sets `IDX <- 2` (R162, R35). -/
def frBaseStep (s : State) : State :=
  { s with acc := frBaseAcc s.dreg s.acc, dreg := s.dreg >>> 2, idx := 2 }

/-- `fr_iteration(); IDX <- IDX + 1` (R163, R35). -/
def frStep (s : State) : State :=
  let r := frIteration (recurrenceOf s)
  { s with pwrRe := r.pr, pwrIm := r.pi, dreg := r.rem, acc := r.acc, idx := s.idx + 1 }

/-- `iv_iteration(IDX); IDX <- IDX + 1` (R172, R35). -/
def ivStep (s : State) : State :=
  let r := ivIteration (extractionOf s)
  { s with acc := r.acc, qreg := r.q, idx := s.idx + 1 }

/-- One sequencer step, the transition taken while `PHASE = RUN` (R35). It reads no port. -/
def seqStep (s : State) : State :=
  match s.op with
  | .bad => raiseError .invalidVariant s
  | .fs => if s.idx.toNat < 16 then fsStep s else complete s
  | .fb => if s.idx.toNat < 16 then fbStep s else complete s
  | .fr => if s.idx = 0 then frBaseStep s else if s.dreg ≠ 0 then frStep s else complete s
  | .iv => if ivContinues (extractionOf s) then ivStep s else ivFinish s

/-- Acceptance of whatever the ports present (R36). -/
def acceptPorts (s : State) : State :=
  accept (decodeOp s.ports.reqCmd) s.ports.reqA s.ports.reqB s

/-- One transition of the hardware at the fine level (R34): reset overrides everything (R208, R230); a running command
takes a sequencer step whatever the ports present (R35, R236); an idle hardware accepts a presented request, and with
none it stays as it is. -/
def tick (s : State) : State :=
  if s.ports.rst then resetEvent s
  else
    match s.phase with
    | .run => seqStep s
    | .idle => if s.ports.reqValid then acceptPorts s else s

/-- `n` transitions at the fine level, with the ports held as they are. -/
def ticks : Nat → State → State
  | 0, s => s
  | n + 1, s => ticks n (tick s)

/-- The total number of sequencer steps a request takes, acceptance not counted (R240). -/
def stepCount (r : Request) : Nat :=
  match decodeOp r.cmd with
  | .bad => 1
  | .fs => 17
  | .fb => 17
  | .fr => 2 + (bitlen r.a - 2)
  | .iv => (invLoop r.a r.b).i + 1

end Sys2Proof.Machine
end

