-- ==== Sys2Proof/Machine/Step.lean ====
section
/-! DEFINITION. One step of the machine, and the placing of a request where the next step samples it. -/

namespace Sys2Proof.Machine

/-- One step. Reset overrides everything (R208, R230). While a command runs it is one sequencer step (R35). An idle machine
with a request presented takes the whole command, from acceptance to completion, as one transition (R12, D16;
assumption log 6, log 11), or, for an undefined command word, ends it in InvalidVariant (R205). An idle machine with no request stays as it is (R221). -/
def step (s : State) : Host.Outcome State Fault Refusal :=
  if s.ports.rst then .next (resetEvent s)
  else
    match s.phase with
    | .run => .next (seqStep s)
    | .idle =>
      if s.ports.reqValid then
        match decode (sampleRequest s) with
        | .ok i => exec i s
        | .error _ => execInvalidVariant s.ports.reqA s.ports.reqB s
      else .next s

/-- `s` with the request that an opcode-table word gives presented on the ports, no reset, and the machine idle so that the
next step accepts it (R21; assumption log 3). -/
def State.withFetchWord (s : State) (nbits w : Nat) : State :=
  let r := requestOfTableWord nbits w
  { s with
    ports := { rst := false, reqValid := true, reqCmd := r.cmd, reqA := r.a, reqB := r.b }
    phase := .idle }

end Sys2Proof.Machine
end

