-- ==== Sys2Proof/Machine/Boundary.lean ====
section
/-! DEFINITION. The host's side of the boundary: what it drives (R21), what it may read and when (R44, R237), what it must
read before it uses a result (R211), and the run of a program (R89, R241). -/

namespace Sys2Proof.Machine

/-- `REQ_READY`, the one output beside the response registers (R21). -/
def State.reqReady (s : State) : Bool := s.phase == .idle

/-- The host presents a request (R21). -/
def State.drive (r : Request) (s : State) : State :=
  { s with ports := { s.ports with reqValid := true, reqCmd := r.cmd, reqA := r.a, reqB := r.b } }

/-- The host's read of the response registers: refused while `RSP_VALID = 0` (R44, R237; assumption log 10). It changes nothing (R65). -/
def hostRead (s : State) : Except Refusal Response :=
  if s.rsp.valid then .ok s.rsp else .error .responseNotValid

/-- A failed command: its error class, the flag that tells which situation it was, and the registers exposed under the
error (R202, R211, U4). The class has no name only for the code 3, which is never produced (R25). -/
structure Failure where
  error : Option CommandError
  ovf : Bool
  remainder : Gauss
  digits : Word
  len : Byte
deriving DecidableEq, Repr

/-- The result proper of a command (R87). -/
inductive Result where
  | gaussian (z : Gauss)
  | digitString (q : Word) (len : Byte)
deriving DecidableEq, Repr

/-- What the registers of a response carry for a request that succeeded, by the direction of the command word the host
sent (R81, R87). -/
def resultProper (cmd : Byte) (r : Response) : Result :=
  if cmdDir cmd then .digitString r.q r.len else .gaussian (gaussOf r.re r.im)

/-- The result of the request whose command word is `cmd`: an error value, not a number, when `STATUS.ERR ≠ 0`, with the
accompanying registers exposed only under that error (R211, U4). -/
def commandResult (cmd : Byte) (r : Response) : Except Failure Result :=
  if statusErr r.status = 0 then .ok (resultProper cmd r)
  else
    .error
      { error := errorOf (statusErr r.status)
        ovf := statusOvf r.status
        remainder := gaussOf r.re r.im
        digits := r.q
        len := r.len }

/-- The state a step answers, when it answers a next state. -/
def answered (o : Host.Outcome State Fault Refusal) : Option State :=
  match o with
  | .next t => some t
  | .fault _ => none
  | .refused _ => none

/-- The host issues a request to an idle machine and reads its response (R237). -/
def issue (r : Request) (s : State) : Option (State × Response) :=
  match step (s.drive r) with
  | .next t =>
    match hostRead t with
    | .ok rsp => some (t, rsp)
    | .error _ => none
  | .fault _ => none
  | .refused _ => none

/-- A program is a list of commands, issued one after another, each after the previous response was read; its result is
the list of responses (R89, R241). -/
def runProgram : List Request → State → Option (List Response)
  | [], _ => some []
  | r :: rest, s =>
    match issue r s with
    | some (t, rsp) => (runProgram rest t).map (rsp :: ·)
    | none => none

end Sys2Proof.Machine
end

