-- ==== Sys2Proof/Safety.lean ====
section
/-! DEFINITION. What counts as a safe machine, in the terms the statements use: the loop invariants the spec gives each
command (R132, R143, R163, R179), the shape of a response (R25, R27, R87, R202), and the invariant made of them. -/

namespace Sys2Proof.Machine

/-- The values `STATUS` can hold: 0x00, 0x01, 0x02, 0x06 (R202, U15). -/
abbrev LegalStatus (status : Byte) : Prop :=
  status = 0x00 ∨ status = 0x01 ∨ status = 0x02 ∨ status = 0x06

/-- A response, once valid, has the form R87 gives it: `LEN_OUT` is the bit length of `Q_OUT` (R27); a success leaves
either no digits or no remainder; InvalidVariant leaves nothing (R205); RepresentationOverflow leaves a non-zero
remainder (R176). -/
structure ResponseOk (r : Response) : Prop where
  status_legal : LegalStatus r.status
  len_eq : r.valid = true → r.len = BitVec.ofNat 8 (bitlen r.q)
  success : r.valid = true → r.status = 0x00 → r.q = 0 ∨ (r.re = 0 ∧ r.im = 0)
  invalid : r.valid = true → r.status = 0x01 → r.re = 0 ∧ r.im = 0 ∧ r.q = 0
  failed : r.valid = true → (r.status = 0x02 ∨ r.status = 0x06) → ¬(r.re = 0 ∧ r.im = 0)

/-- What a running forward command keeps: no error, no digit string, no overflow (R29, R136, R149, R167). -/
structure ForwardQuiet (s : State) : Prop where
  errw_zero : s.errw = 0
  qreg_zero : s.qreg = 0
  no_overflow : s.acc.ovf = false

/-- FWD.SCALAR before the pass of group `IDX` (R132, R123). -/
structure ScalarRuns (s : State) : Prop extends ForwardQuiet s where
  idx_le : s.idx.toNat ≤ 16
  scale_eq : s.scale = (1 : Word) <<< (4 * s.idx.toNat)
  acc_eq : s.acc.gauss = digitSum s.dreg (8 * s.idx.toNat)

/-- FWD.BATCH before the pass of group `IDX` (R143). -/
structure BatchRuns (s : State) : Prop extends ForwardQuiet s where
  idx_le : s.idx.toNat ≤ 16
  acc_eq : s.acc.gauss = digitSum s.dreg (8 * s.idx.toNat)

/-- FWD.RECUR before its base cases, as acceptance left it (R36, R161). -/
structure RecurStarts (s : State) : Prop where
  idx_eq : s.idx = 0
  pwr_re : s.pwrRe = -1
  pwr_im : s.pwrIm = 1
  acc_eq : s.acc = accClear

/-- FWD.RECUR at the start of a step with `IDX = k ≥ 2`: `PWR = b^(k-1)`, `DREG = d >> k`, and the accumulator holds the
lowest `k` digits of some operand `d` (R163, R38). -/
structure RecurLoops (s : State) : Prop where
  idx_ge : 2 ≤ s.idx.toNat
  idx_le : s.idx.toNat ≤ 128
  pwr_eq : gaussOf s.pwrRe s.pwrIm = powB (s.idx.toNat - 1)
  acc_eq : ∃ d : Word, s.dreg = d >>> s.idx.toNat ∧ s.acc.gauss = digitSum d s.idx.toNat

/-- FWD.RECUR while it runs. -/
structure RecurRuns (s : State) : Prop extends ForwardQuiet s where
  loop : RecurStarts s ∨ RecurLoops s

/-- How many digits the accumulator of INV has had divided out: all that were extracted, less the last where its division
overflowed and left the accumulator unchanged (R172, R176). -/
def divisions (ovf : Bool) (idx : Nat) : Nat := if ovf then idx - 1 else idx

/-- INV at the start of a step with `IDX = i` (R179, R176): the digits so far and the remainder make up the input, whose
real part is still in `DREG`; no digit stands at or above `i`; a detected overflow leaves the accumulator non-zero (R173). -/
structure InverseRuns (s : State) : Prop where
  errw_zero : s.errw = 0
  idx_le : s.idx.toNat ≤ 128
  digits_below : ∀ k, s.idx.toNat ≤ k → s.qreg.getLsbD k = false
  overflow_nonzero : s.acc.ovf = true → 1 ≤ s.idx.toNat ∧ accIsZero s.acc = false
  input_eq : ∃ im : Word,
    gaussOf s.dreg im =
      (digitSum s.qreg (divisions s.acc.ovf s.idx.toNat)).add
        (s.acc.gauss.mul (powB (divisions s.acc.ovf s.idx.toNat)))

/-- An undefined command word after acceptance and before its one step (R205). -/
structure InvalidRuns (s : State) : Prop where
  acc_eq : s.acc = accClear
  qreg_zero : s.qreg = 0

/-- The invariant of a running command, by its `OP`. -/
def CommandRuns (s : State) : Prop :=
  match s.op with
  | .fs => ScalarRuns s
  | .fb => BatchRuns s
  | .fr => RecurRuns s
  | .iv => InverseRuns s
  | .bad => InvalidRuns s

/-- The invariant of the machine: the response registers have their form, and while a command runs no response is valid
(R24) and the command's loop invariant holds. -/
structure State.Inv (s : State) : Prop where
  response : ResponseOk s.rsp
  running : s.phase = .run → s.rsp.valid = false ∧ CommandRuns s

/-- A pair of signed 128-bit integers is representable when it is the value of some 128-bit digit string (R180, R201). -/
def Representable (z : Gauss) : Prop := ∃ e : Word, value e = z

/-- The contribution of digit `k`, `b^k`, as the pair of patterns that is added (R108, R121). -/
def powerPatterns (k : Nat) : Word × Word := (store (powB k).re, store (powB k).im)

/-- The machine is idle and a reset is not requested: the condition under which a presented request is accepted (R21,
R34). -/
abbrev State.Ready (s : State) : Prop := s.phase = .idle ∧ s.ports.rst = false

end Sys2Proof.Machine
end

