-- ==== Sys2Proof/Certificates/Slice0/Obligations.lean ====
section
/-! DEFINITION. The statements for the provers, each with the rule or section of spec/ it comes from. -/

open Sys2Proof Sys2Proof.Machine

section Arithmetic

/-- R8: `wrap128` is the formula, lands in the signed range, is what a register holds after a store, and is what 128-bit
addition, subtraction, negation and multiplication by a constant compute. -/
def Obligations.ArithmeticWrapsModulo : Prop :=
  (∀ v : Int,
    wrap128 v = (v + 2 ^ 127) % 2 ^ 128 - 2 ^ 127 ∧
    -2 ^ 127 ≤ wrap128 v ∧ wrap128 v ≤ 2 ^ 127 - 1 ∧
    (store v).toInt = wrap128 v) ∧
  ∀ (x y : Word) (c : Int),
    (x + y).toInt = wrap128 (x.toInt + y.toInt) ∧
    (x - y).toInt = wrap128 (x.toInt - y.toInt) ∧
    (-x).toInt = wrap128 (-x.toInt) ∧
    (BitVec.ofInt 128 c * x).toInt = wrap128 (c * x.toInt)

/-- The bit length is 0 for zero and otherwise 1 + the index of the highest set bit (00_scope.md section 6). -/
def Obligations.BitLengthIsHighestBit : Prop :=
  bitlen 0 = 0 ∧
  ∀ q : Word, q ≠ 0 →
    1 ≤ bitlen q ∧ bitlen q ≤ 128 ∧ q.getLsbD (bitlen q - 1) = true ∧
    ∀ k, bitlen q ≤ k → q.getLsbD k = false

end Arithmetic

section Encoding

/-- R83: the five outcomes of the decode function in terms of DIR (bit 7) and VAR (bits 6:0), total on the 256 words. -/
def Obligations.DecodeByDirectionAndVariant : Prop :=
  ∀ cmd : Byte,
    (decodeOp cmd = .fs ↔ cmd.getLsbD 7 = false ∧ cmd.toNat % 128 = 0) ∧
    (decodeOp cmd = .fb ↔ cmd.getLsbD 7 = false ∧ cmd.toNat % 128 = 1) ∧
    (decodeOp cmd = .fr ↔ cmd.getLsbD 7 = false ∧ cmd.toNat % 128 = 2) ∧
    (decodeOp cmd = .iv ↔ cmd.getLsbD 7 = true ∧ cmd.toNat % 128 = 0) ∧
    (decodeOp cmd = .bad ↔
      (cmd.getLsbD 7 = false ∧ 3 ≤ cmd.toNat % 128) ∨ (cmd.getLsbD 7 = true ∧ cmd.toNat % 128 ≠ 0))

/-- Decoding what was encoded gives the command back, with every operand at every value, on the port triple and on the
264-bit record, and what was encoded is well formed (30_encoding.md sections 1 and 3). -/
def Obligations.DecodeOfEncode : Prop :=
  ∀ i : Instr,
    decode (encode i) = .ok i ∧ decodeRecord (encodeRecord i) = .ok i ∧ (encode i).wf = true

/-- Encoding what was decoded gives the record back but for field B of a forward command, which no forward command reads;
and a request is refused exactly when its command word is undefined (30_encoding.md sections 1 to 4). -/
def Obligations.EncodeOfDecode : Prop :=
  (∀ (w : BitVec 264) (i : Instr), decodeRecord w = .ok i →
    (encode i).cmd = (requestOfRecord w).cmd ∧ (encode i).a = (requestOfRecord w).a ∧
    ((∃ re im, i = .inv re im) → encodeRecord i = w) ∧
    ((¬ ∃ re im, i = .inv re im) → (encode i).b = 0)) ∧
  ∀ r : Request, decode r = .error (.invalidVariant r.cmd) ↔ r.wf = false

/-- The four words of the opcode table and their nearest undefined neighbours (30_encoding.md section 3,
95_test_vectors.md section 2). The table lays out no operands, and that they are zero here is the model's choice (assumption
log 9). -/
def Obligations.TableWordsDecode : Prop :=
  decodeTableWord 8 0b00000000 = some (.fwdScalar 0) ∧
  decodeTableWord 8 0b00000001 = some (.fwdBatch 0) ∧
  decodeTableWord 8 0b00000010 = some (.fwdRecur 0) ∧
  decodeTableWord 8 0b10000000 = some (.inv 0 0) ∧
  decodeTableWord 8 0b00000011 = none ∧
  decodeTableWord 8 0b01111111 = none ∧
  decodeTableWord 8 0b10000001 = none ∧
  decodeTableWord 8 0b11111111 = none

/-- The listing syntax: each written form gives its command with its operands as 128-bit patterns, `FWD` is `FWD.SCALAR`,
a written signed number reads back as itself, and the raw form gives its command word (30_encoding.md section 7). -/
def Obligations.ListingAssembles : Prop :=
  (∀ d : Int, (Line.fwd d).wf = true →
    assemble (.fwd d) = assemble (.fwdScalar d) ∧
    decode (assemble (.fwdScalar d)) = .ok (.fwdScalar (operandPattern d)) ∧
    decode (assemble (.fwdBatch d)) = .ok (.fwdBatch (operandPattern d)) ∧
    decode (assemble (.fwdRecur d)) = .ok (.fwdRecur (operandPattern d)) ∧
    (operandPattern d).toNat = (if 0 ≤ d then d else d + 2 ^ 128).toNat) ∧
  (∀ re im : Int, smin ≤ re → re ≤ smax → smin ≤ im → im ≤ smax →
    (Line.inv re im).wf = true ∧
    ∃ x y, decode (assemble (.inv re im)) = .ok (.inv x y) ∧ x.toInt = re ∧ y.toInt = im) ∧
  ∀ (word : Nat) (a b : Int), (Line.cmd word a b).wf = true →
    (assemble (.cmd word a b)).cmd.toNat = word ∧
    (assemble (.cmd word a b)).a = operandPattern a ∧ (assemble (.cmd word a b)).b = operandPattern b

end Encoding

section Accumulator

/-- R102, R103: the two loads clear the flag and load the pair, and acceptance uses `acc_load` for INV and `acc_clear` for
every other command. -/
def Obligations.AccumulatorClearAndLoad : Prop :=
  (accClear.re = 0 ∧ accClear.im = 0 ∧ accClear.ovf = false) ∧
  (∀ re im : Word, (accLoad re im).re = re ∧ (accLoad re im).im = im ∧ (accLoad re im).ovf = false) ∧
  ∀ (op : Op) (a b : Word) (s : State),
    (op = .iv → (accept op a b s).acc = accLoad a b) ∧ (op ≠ .iv → (accept op a b s).acc = accClear)

/-- R104: the components wrap independently; the flag is set exactly when an exact sum leaves the signed range, which in
gate terms is the sign rule; it is never cleared; adding zero changes nothing; and the corner cases. -/
def Obligations.AccumulatorAddWraps : Prop :=
  (∀ (a : Acc) (dre dim : Word),
    -2 ^ 128 ≤ a.re.toInt + dre.toInt ∧ a.re.toInt + dre.toInt ≤ 2 ^ 128 - 2 ∧
    (accAdd a dre dim).re.toInt = wrap128 (a.re.toInt + dre.toInt) ∧
    (accAdd a dre dim).im.toInt = wrap128 (a.im.toInt + dim.toInt) ∧
    (accAdd a dre dim).re = a.re + dre ∧ (accAdd a dre dim).im = a.im + dim ∧
    ((accAdd a dre dim).ovf = true ↔
      a.ovf = true ∨ ¬(smin ≤ a.re.toInt + dre.toInt ∧ a.re.toInt + dre.toInt ≤ smax) ∨
        ¬(smin ≤ a.im.toInt + dim.toInt ∧ a.im.toInt + dim.toInt ≤ smax)) ∧
    (accAdd a dre dim).ovf = (a.ovf || gateOverflow a.re dre || gateOverflow a.im dim) ∧
    accAdd a 0 0 = a) ∧
  accAdd ⟨store smax, 0, false⟩ 1 0 = ⟨store smin, 0, true⟩ ∧
  accAdd ⟨store smin, 0, false⟩ (-1) 0 = ⟨store smax, 0, true⟩ ∧
  accAdd ⟨store smin, store smax, false⟩ (store smax) (store smin) = ⟨-1, -1, false⟩ ∧
  accAdd ⟨-1, 1, false⟩ 0 (-2) = ⟨-1, -1, false⟩

/-- R105: the exact numerators and their ranges; out of range the flag is set and the pair kept; in range the pair is the
numerators halved, of magnitude at most `2^126`, and the flag is as before; and the corner cases and examples. -/
def Obligations.AccumulatorDividesByBase : Prop :=
  (∀ (a : Acc) (c : Bool) (cv n1 n2 : Int), cv = (if c then 1 else 0) →
    n1 = a.im.toInt - a.re.toInt + cv → n2 = -a.re.toInt - a.im.toInt + cv →
    (-2 ^ 128 + 1 ≤ n1 ∧ n1 ≤ 2 ^ 128 ∧ -2 ^ 128 + 2 ≤ n2 ∧ n2 ≤ 2 ^ 128 + 1) ∧
    ((n1 ≠ wrap128 n1 ∨ n2 ≠ wrap128 n2) →
      accDivb a c = { a with ovf := true }) ∧
    (¬(n1 ≠ wrap128 n1 ∨ n2 ≠ wrap128 n2) →
      (accDivb a c).re.toInt = n1 / 2 ∧ (accDivb a c).im.toInt = n2 / 2 ∧ (accDivb a c).ovf = a.ovf ∧
      -2 ^ 126 ≤ n1 / 2 ∧ n1 / 2 ≤ 2 ^ 126 - 1 ∧ -2 ^ 126 ≤ n2 / 2 ∧ n2 / 2 ≤ 2 ^ 126 - 1)) ∧
  accDivb ⟨store smin, store smax, false⟩ true = ⟨store smin, store smax, true⟩ ∧
  accDivb ⟨1, 0, false⟩ true = ⟨0, 0, false⟩ ∧
  accDivb ⟨-1, 1, false⟩ false = ⟨1, 0, false⟩

/-- R106, R107: the zero test, and the parity, which is the exclusive-or of the two bit 0s and is 1 exactly when one
component is odd and the other even. -/
def Obligations.ParityAndZeroTests : Prop :=
  ∀ a : Acc,
    (accIsZero a = true ↔ a.re.toInt = 0 ∧ a.im.toInt = 0) ∧
    accParity a = (a.re.getLsbD 0 ^^ a.im.getLsbD 0) ∧
    (accParity a = true ↔
      (a.re.toInt % 2 = 1 ∧ a.im.toInt % 2 = 0) ∨ (a.re.toInt % 2 = 0 ∧ a.im.toInt % 2 = 1))

/-- R110: with `c = acc_parity()` both numerators are even, and where they fit the halving is an arithmetic right shift of
the 128-bit numerator and the pair is exactly `(z - c)/b`; and INV divides with this `c` and no other. -/
def Obligations.DivisionIsExact : Prop :=
  ∀ (a : Acc) (cv n1 n2 : Int), cv = (if accParity a then 1 else 0) →
    n1 = a.im.toInt - a.re.toInt + cv → n2 = -a.re.toInt - a.im.toInt + cv →
    n1 % 2 = 0 ∧ n2 % 2 = 0 ∧
    ((accDivb a (accParity a)).ovf = false →
      (accDivb a (accParity a)).re = (store n1).sshiftRight 1 ∧
      (accDivb a (accParity a)).im = (store n2).sshiftRight 1 ∧
      a.gauss = Gauss.add ⟨cv, 0⟩ (accDivb a (accParity a)).gauss.mulB) ∧
    ∀ (q : Word) (i : Nat), (ivIteration ⟨a, q, i⟩).acc = accDivb a (accParity a)

/-- R108: the stored pair after any additions from a clear accumulator is the wrapped exact sums, whatever the order; the
flag can depend on the order; and it does not for the contributions of the forward commands, which overflow in no order. -/
def Obligations.AccumulationOrderFree : Prop :=
  (∀ l : List (Word × Word),
    (l.foldl (fun a p => accAdd a p.1 p.2) accClear).re.toInt = wrap128 (l.map (·.1.toInt)).sum ∧
    (l.foldl (fun a p => accAdd a p.1 p.2) accClear).im.toInt = wrap128 (l.map (·.2.toInt)).sum) ∧
  (∀ l l' : List (Word × Word), l.Perm l' →
    (l.foldl (fun a p => accAdd a p.1 p.2) accClear).gauss = (l'.foldl (fun a p => accAdd a p.1 p.2) accClear).gauss) ∧
  (∃ l l' : List (Word × Word), l.Perm l' ∧
    (l.foldl (fun a p => accAdd a p.1 p.2) accClear).ovf ≠ (l'.foldl (fun a p => accAdd a p.1 p.2) accClear).ovf) ∧
  ∀ l : List Nat, l.Nodup → (∀ k ∈ l, k < 128) →
    ((l.map powerPatterns).foldl (fun a p => accAdd a p.1 p.2) accClear).ovf = false

/-- R111: every subset of the 128 powers sums into the exact bounds, strictly inside `(-2^64, 2^64)`, and no forward command
sets the flag. -/
def Obligations.ForwardSumsBounded : Prop :=
  (∀ S : Finset Nat, (∀ k ∈ S, k < 128) →
    -13 * boundK ≤ ∑ k ∈ S, (powB k).re ∧ ∑ k ∈ S, (powB k).re ≤ 7 * boundK ∧
    -14 * boundK ≤ ∑ k ∈ S, (powB k).im ∧ ∑ k ∈ S, (powB k).im ≤ 11 * boundK ∧
    |∑ k ∈ S, (powB k).re| < 2 ^ 64 ∧ |∑ k ∈ S, (powB k).im| < 2 ^ 64) ∧
  15 * boundK = 2 ^ 64 - 1 ∧
  ∀ d : Word,
    (fwdScalarLoop d).1.ovf = false ∧ (fwdBatchLoop d).ovf = false ∧ (fwdRecurLoop d).acc.ovf = false

end Accumulator

section Table

/-- R122: the lookup at scale `16^g` is `b^(8g+j)`, its largest magnitude is `2^63`, and the two examples. -/
def Obligations.LookupGivesPowers : Prop :=
  (∀ (g : Nat) (j : Fin 8) (s : Word), g < 16 → s.toNat = 16 ^ g →
    gaussOf (ctContrib j s).1 (ctContrib j s).2 = powB (8 * g + j) ∧
    |(ctContrib j s).1.toInt| ≤ 2 ^ 63 ∧ |(ctContrib j s).2.toInt| ≤ 2 ^ 63) ∧
  (∀ (j : Fin 8) (s : Word),
    ctContrib j s =
      ((coefficientTable j).sr.apply ((coefficientTable j).p.zeroExtend 128 * s),
       (coefficientTable j).si.apply ((coefficientTable j).p.zeroExtend 128 * s))) ∧
  ctContrib 3 1 = (2, 2) ∧
  ctContrib 7 (BitVec.ofNat 128 (16 ^ 15)) = (store (-2 ^ 63), store (-2 ^ 63))

/-- R124: the two rows are the columns of the table at `s = 1`, and they are the eight powers `b^0` to `b^7`
(41_coefficient_table.md, 43_forward_batch_simd.md). -/
def Obligations.RowsAreTableColumns : Prop :=
  ∀ j : Fin 8,
    (realRow j).signExtend 128 = (ctContrib j 1).1 ∧ (imagRow j).signExtend 128 = (ctContrib j 1).2 ∧
    (realRow j).toInt = (powB j).re ∧ (imagRow j).toInt = (powB j).im

end Table

section Packed

/-- R144: each product is the row's element or 0, the result is the sum of the row's elements at the set lanes, and for the
two rows no product leaves `[-8, 8]` and no partial sum leaves `[-14, 11]`. -/
def Obligations.PackedDotProduct : Prop :=
  (∀ (row lanes : Fin 8 → Byte), (∀ j, lanes j = 0 ∨ lanes j = 1) →
    (∀ j, (laneProduct row lanes j).toInt = if lanes j = 1 then (row j).toInt else 0) ∧
    (dot8 row lanes).toInt = ∑ j : Fin 8, (if lanes j = 1 then (row j).toInt else 0)) ∧
  ∀ (row lanes : Fin 8 → Byte), (row = realRow ∨ row = imagRow) → (∀ j, lanes j = 0 ∨ lanes j = 1) →
    (∀ j, -8 ≤ (laneProduct row lanes j).toInt ∧ (laneProduct row lanes j).toInt ≤ 8) ∧
    ∀ S : Finset (Fin 8),
      -14 ≤ ∑ j ∈ S, (laneProduct row lanes j).toInt ∧ ∑ j ∈ S, (laneProduct row lanes j).toInt ≤ 11

/-- R145: extended first and then shifted, a scalar with `|v|·16^g < 2^127` becomes `v·16^g`; the scalars of a group stay
below `2^64`; and shifting the 32-bit value before extending it is wrong from `g = 7` on. -/
def Obligations.ScalarShiftMultiplies : Prop :=
  (∀ (v : BitVec 32) (g : Nat), |v.toInt| * 16 ^ g < 2 ^ 127 → (shiftScalar v g).toInt = v.toInt * 16 ^ g) ∧
  (∀ (v : BitVec 32) (g : Nat), |v.toInt| ≤ 14 → g ≤ 15 →
    (shiftScalar v g).toInt = v.toInt * 16 ^ g ∧ |(shiftScalar v g).toInt| < 2 ^ 64) ∧
  ∀ g : Nat, 7 ≤ g → g ≤ 15 →
    ∃ v : BitVec 32, |v.toInt| ≤ 14 ∧ ((v <<< (4 * g)).signExtend 128).toInt ≠ v.toInt * 16 ^ g

/-- The pass of FWD.BATCH reads the operand only through the group's byte, so a 256-entry lookup could replace it; bit `j`
of that byte, which is also byte `g` of a little-endian wrapper, is bit `8g + j` of the operand (43_forward_batch_simd.md,
20_memory.md section 2). -/
def Obligations.BatchReadsOneByte : Prop :=
  (∀ (d e : Word) (g : Nat) (a : Acc), group d g = group e g → fbGroupPass d g a = fbGroupPass e g a) ∧
  ∀ (d : Word) (g : Nat) (j : Fin 8),
    (group d g).getLsbD j = d.getLsbD (8 * g + j) ∧
    (group d g).toNat = d.toNat / 256 ^ g % 256 ∧
    (lane d g j = if (group d g).getLsbD j then 1 else 0)

end Packed

section Forward

/-- `FWD.SCALAR d` answers, from every state, the state in which `(RE_OUT, IM_OUT) = value(d)`, `Q_OUT = 0`, `LEN_OUT = 0`,
`STATUS = 0x00`, and every other register holds what acceptance and the 16 passes leave; the ports and nothing else are as
before (R131, R135, R136, and 10_state.md). -/
def Obligations.ForwardScalarResult : Prop :=
  ∀ (d : Word) (s : State),
    exec (.fwdScalar d) s =
      .next
        { s with
          rsp := ⟨true, 0x00, store (value d).re, store (value d).im, 0, 0⟩
          phase := .idle
          op := .fs
          idx := 16
          errw := 0
          dreg := d
          scale := BitVec.ofNat 128 (2 ^ 64)
          pwrRe := -1
          pwrIm := 1
          qreg := 0
          acc := ⟨store (value d).re, store (value d).im, false⟩ } ∧
    (store (value d).re).toInt = (value d).re ∧ (store (value d).im).toInt = (value d).im

/-- `FWD.BATCH d` answers the same response from every state, with `SCALE` as acceptance wrote it
(43_forward_batch_simd.md). -/
def Obligations.ForwardBatchResult : Prop :=
  ∀ (d : Word) (s : State),
    exec (.fwdBatch d) s =
      .next
        { s with
          rsp := ⟨true, 0x00, store (value d).re, store (value d).im, 0, 0⟩
          phase := .idle
          op := .fb
          idx := 16
          errw := 0
          dreg := d
          scale := 1
          pwrRe := -1
          pwrIm := 1
          qreg := 0
          acc := ⟨store (value d).re, store (value d).im, false⟩ }

/-- `FWD.RECUR d` answers the same response from every state; `IDX` ends at the larger of 2 and the bit length, the power at
`b^(IDX-1)`, and the remaining digit string at 0 (44_forward_recurrence.md). -/
def Obligations.ForwardRecurResult : Prop :=
  ∀ (d : Word) (s : State),
    exec (.fwdRecur d) s =
      .next
        { s with
          rsp := ⟨true, 0x00, store (value d).re, store (value d).im, 0, 0⟩
          phase := .idle
          op := .fr
          idx := BitVec.ofNat 8 (max 2 (bitlen d))
          errw := 0
          dreg := 0
          scale := 1
          pwrRe := store (powB (max 2 (bitlen d) - 1)).re
          pwrIm := store (powB (max 2 (bitlen d) - 1)).im
          qreg := 0
          acc := ⟨store (value d).re, store (value d).im, false⟩ } ∧
    (store (powB (max 2 (bitlen d) - 1)).re).toInt = (powB (max 2 (bitlen d) - 1)).re ∧
    (store (powB (max 2 (bitlen d) - 1)).im).toInt = (powB (max 2 (bitlen d) - 1)).im

/-- The three forward commands give bit-identical responses, in every response register, for every operand and from any
three states (43_forward_batch_simd.md, 44_forward_recurrence.md). -/
def Obligations.ForwardVariantsAgree : Prop :=
  ∀ (d : Word) (s s' s'' : State),
    ∃ t t' t'', exec (.fwdScalar d) s = .next t ∧ exec (.fwdBatch d) s' = .next t' ∧ exec (.fwdRecur d) s'' = .next t'' ∧
      t.rsp = t'.rsp ∧ t'.rsp = t''.rsp

/-- A group pass of FWD.SCALAR gives the same accumulator in whatever order its bits are taken (42_forward_scalar.md). -/
def Obligations.GroupPassOrderFree : Prop :=
  ∀ (d : Word) (g : Nat) (a : Acc) (order : List (Fin 8)),
    g < 16 → order.Perm bitPositions → a.gauss = digitSum d (8 * g) → a.ovf = false →
    order.foldl
        (fun a j =>
          if groupBit d g j then
            accAdd a (ctContrib j (BitVec.ofNat 128 (16 ^ g))).1 (ctContrib j (BitVec.ofNat 128 (16 ^ g))).2
          else a) a =
      fsGroupPass d g (BitVec.ofNat 128 (16 ^ g)) a

/-- The recurrence runs `max(0, bitlen(d) - 2)` iterations, at most 126, and ends with nothing remaining
(44_forward_recurrence.md). -/
def Obligations.RecurrenceIterations : Prop :=
  ∀ d : Word,
    (fwdRecurLoop d).k = 2 + (bitlen d - 2) ∧ bitlen d - 2 ≤ 126 ∧ (fwdRecurLoop d).rem = 0 ∧
    (d.toNat < 4 → fwdRecurLoop d = frStart d)

/-- Running the iteration for every bit position from 2 to 127 whatever remains gives the same accumulator
(44_forward_recurrence.md). -/
def Obligations.RecurrenceFixedLengthAgrees : Prop :=
  ∀ d : Word, (frIteration^[126] (frStart d)).acc = (fwdRecurLoop d).acc

/-- Every digit string denotes one Gaussian integer and no two denote the same one (42_forward_scalar.md,
45_inverse_converter.md). -/
def Obligations.ExpansionUnique : Prop :=
  ∀ d e : Word, value d = value e → d = e

end Forward

section Inverse

/-- INV of the value of a digit string gives the digit string back, with its bit length and no error, from every state; what
every register holds after it (45_inverse_converter.md). -/
def Obligations.InverseOfValue : Prop :=
  ∀ (e re im : Word) (s : State), gaussOf re im = value e →
    exec (.inv re im) s =
      .next
        { s with
          rsp := ⟨true, 0x00, 0, 0, e, BitVec.ofNat 8 (bitlen e)⟩
          phase := .idle
          op := .iv
          idx := BitVec.ofNat 8 (bitlen e)
          errw := 0
          dreg := re
          scale := 1
          pwrRe := -1
          pwrIm := 1
          qreg := e
          acc := ⟨0, 0, false⟩ }

/-- R180: INV of a value succeeds with that digit string; when it reports no error the digit string's value is the input;
and it reports RepresentationOverflow on every pair that is no digit string's value. -/
def Obligations.InverseRoundTrip : Prop :=
  ∀ (re im : Word) (s : State), ∃ t, exec (.inv re im) s = .next t ∧
    (∀ e : Word, value e = gaussOf re im →
      t.rsp.q = e ∧ t.rsp.len.toNat = bitlen e ∧ t.rsp.status = 0x00) ∧
    (statusErr t.rsp.status = 0 → value t.rsp.q = gaussOf re im ∧ t.rsp.re = 0 ∧ t.rsp.im = 0) ∧
    (¬ Representable (gaussOf re im) → statusErr t.rsp.status = 2)

/-- The round trip of the two converters as commands: INV of what any forward command answers gives its operand back
(42_forward_scalar.md, 95_test_vectors.md S10). -/
def Obligations.InverseOfForward : Prop :=
  ∀ (d : Word) (i : Instr) (s t u : State),
    (i = .fwdScalar d ∨ i = .fwdBatch d ∨ i = .fwdRecur d) →
    exec i s = .next t → exec (.inv t.rsp.re t.rsp.im) t = .next u →
    u.rsp = ⟨true, 0x00, 0, 0, d, BitVec.ofNat 8 (bitlen d)⟩

/-- Every INV answers, with the response registers holding the accumulator, `QREG`, its bit length and the status; the three
exits with their status, `IDX` and remainder; and the equation between the input, the digits and the remainder (the
remainder and the digits, R176; the status values and `IDX = bitlen` on success, R178; both of 45_inverse_converter.md).
Every register the exits do not name is as acceptance left it (10_state.md section 5). -/
def Obligations.InverseOutcome : Prop :=
  ∀ (re im : Word) (s : State), ∃ (n : Nat) (q x y : Word) (ovf : Bool) (err : BitVec 2),
    exec (.inv re im) s =
      .next
        { s with
          rsp := ⟨true, statusWord ovf err, x, y, q, BitVec.ofNat 8 (bitlen q)⟩
          phase := .idle
          op := .iv
          idx := BitVec.ofNat 8 n
          errw := err
          dreg := re
          scale := 1
          pwrRe := -1
          pwrIm := 1
          qreg := q
          acc := ⟨x, y, ovf⟩ } ∧
    n ≤ 128 ∧ (∀ k, n ≤ k → q.getLsbD k = false) ∧
    gaussOf re im =
      (digitSum q (divisions ovf n)).add ((gaussOf x y).mul (powB (divisions ovf n))) ∧
    ((statusWord ovf err = 0x00 ∧ x = 0 ∧ y = 0 ∧ n = bitlen q) ∨
     (statusWord ovf err = 0x02 ∧ ¬(x = 0 ∧ y = 0) ∧ n = 128 ∧ powB 128 = ⟨2 ^ 64, 0⟩) ∨
     (statusWord ovf err = 0x06 ∧ ¬(x = 0 ∧ y = 0) ∧ 1 ≤ n ∧ q.getLsbD (n - 1) = accParity ⟨x, y, false⟩ ∧
       (accDivb ⟨x, y, false⟩ (accParity ⟨x, y, false⟩)).ovf = true))

/-- Every bit INV reports is the digit of the same index in any expansion of the input, as far as it went, success or
failure; and after a failure the input has no 128-digit expansion (45_inverse_converter.md). -/
def Obligations.InverseDigitsAreTrue : Prop :=
  ∀ (re im : Word) (s t : State), exec (.inv re im) s = .next t →
    (∀ (e : Word) (rest : Gauss) (m : Nat), m ≤ 128 →
      gaussOf re im = (digitSum e m).add (rest.mul (powB m)) →
      ∀ k, k < m → k < t.idx.toNat → t.rsp.q.getLsbD k = e.getLsbD k) ∧
    (statusErr t.rsp.status ≠ 0 → ¬ Representable (gaussOf re im))

/-- An overflow detected by INV happens only for an input with no 128-digit expansion, and it is always reported with
RepresentationOverflow; the input whose wrapped numerators would give `0x7` is one (45_inverse_converter.md). -/
def Obligations.InverseOverflowTruthful : Prop :=
  (∀ (re im : Word) (s t : State), exec (.inv re im) s = .next t → statusOvf t.rsp.status = true →
    ¬ Representable (gaussOf re im) ∧ statusErr t.rsp.status = 2) ∧
  ∀ s : State, ∃ t, exec (.inv (store smin) (store smax)) s = .next t ∧
    t.rsp = ⟨true, 0x06, store smin, store smax, 0x1, 1⟩ ∧ t.idx = 1

/-- R181: the value of a digit string lies in the component bounds and `re² + im² ≤ 260·K²`; an input outside these bounds
ends in RepresentationOverflow; and the bounds are not sufficient, as `(2^62, 0)` shows. -/
def Obligations.RepresentableSizeBounds : Prop :=
  (∀ e : Word,
    -13 * boundK ≤ (value e).re ∧ (value e).re ≤ 7 * boundK ∧
    -14 * boundK ≤ (value e).im ∧ (value e).im ≤ 11 * boundK ∧
    (value e).norm ≤ 260 * boundK ^ 2) ∧
  (∀ (re im : Word) (s : State),
    ¬(-13 * boundK ≤ re.toInt ∧ re.toInt ≤ 7 * boundK ∧ -14 * boundK ≤ im.toInt ∧ im.toInt ≤ 11 * boundK ∧
      (gaussOf re im).norm ≤ 260 * boundK ^ 2) →
    ∃ t, exec (.inv re im) s = .next t ∧ statusErr t.rsp.status = 2) ∧
  ∀ s : State, ∃ t, exec (.inv (store (2 ^ 62)) 0) s = .next t ∧
    t.rsp = ⟨true, 0x02, 1, 0, 0xD0000000000000000000000000000000, 128⟩

end Inverse

section Errors

/-- A request with an undefined command word ends in the response `STATUS = 0x01` and zeros, whatever the operands
(60_exceptions.md section 2), and every other register is as acceptance wrote it (10_state.md sections 3 and 5). That
acceptance and the one sequencer step after it are taken as one step of the machine is the model's choice (assumption
log 6). -/
def Obligations.InvalidVariantResponse : Prop :=
  ∀ s : State, s.Ready → s.ports.reqValid = true → decodeOp s.ports.reqCmd = .bad →
    step s =
      .next
        { s with
          rsp := ⟨true, 0x01, 0, 0, 0, 0⟩
          phase := .idle
          op := .bad
          idx := 0
          errw := 1
          dreg := s.ports.reqA
          scale := 1
          pwrRe := -1
          pwrIm := 1
          qreg := 0
          acc := ⟨0, 0, false⟩ }

/-- Every command completes with a legal `STATUS`: 0x00 for a forward command, 0x00, 0x02 or 0x06 for INV; an overflow is
never reported without an error (45_inverse_converter.md, 60_exceptions.md section 1). -/
def Obligations.StatusAfterCommand : Prop :=
  ∀ (i : Instr) (s : State), ∃ t, exec i s = .next t ∧ t.rsp.valid = true ∧
    ((¬ ∃ re im, i = .inv re im) → t.rsp.status = 0x00) ∧
    ((∃ re im, i = .inv re im) → t.rsp.status = 0x00 ∨ t.rsp.status = 0x02 ∨ t.rsp.status = 0x06) ∧
    (statusOvf t.rsp.status = true → statusErr t.rsp.status = 2)

/-- The fields of `STATUS`: ERR in bits 1:0, OVF in bit 2, zero above (10_state.md section 3). -/
def Obligations.StatusFields : Prop :=
  ∀ (ovf : Bool) (err : BitVec 2),
    statusErr (statusWord ovf err) = err ∧ statusOvf (statusWord ovf err) = ovf ∧
    ∀ k, 3 ≤ k → (statusWord ovf err).getLsbD k = false

/-- The host's read gives the response registers when `RSP_VALID = 1` and is refused otherwise (the refusal is the model's
form, assumption log 10). A result is given exactly when `STATUS.ERR = 0`, and otherwise an error value with its class, the
overflow flag and the exposed registers. What the host reads of every request: `value(d)` of each forward command; the digit
string of INV, or RepresentationOverflow with the remainder, the digits, their bit length and the flag that tells the cap
from a detected overflow; InvalidVariant with zeros for an undefined command word (10_state.md section 7, 30_encoding.md
section 6, 60_exceptions.md sections 1 and 2). That one step takes the whole request is the model's choice (assumption
log 6). -/
def Obligations.HostReadsResult : Prop :=
  (∀ s : State, (s.rsp.valid = true → hostRead s = .ok s.rsp) ∧
    (s.rsp.valid = false → hostRead s = .error .responseNotValid)) ∧
  (∀ (cmd : Byte) (r : Response),
    ((∃ x, commandResult cmd r = .ok x) ↔ statusErr r.status = 0) ∧
    (statusErr r.status ≠ 0 →
      commandResult cmd r =
        .error ⟨errorOf (statusErr r.status), statusOvf r.status, gaussOf r.re r.im, r.q, r.len⟩)) ∧
  (∀ (d : Word) (i : Instr) (s : State), (i = .fwdScalar d ∨ i = .fwdBatch d ∨ i = .fwdRecur d) →
    ∃ t, exec i s = .next t ∧ hostRead t = .ok t.rsp ∧
      commandResult (commandWord i) t.rsp = .ok (.gaussian (value d))) ∧
  (∀ (re im : Word) (s : State) (e : Word), value e = gaussOf re im →
    ∃ t, exec (.inv re im) s = .next t ∧ hostRead t = .ok t.rsp ∧
      commandResult (commandWord (.inv re im)) t.rsp = .ok (.digitString e (BitVec.ofNat 8 (bitlen e)))) ∧
  (∀ (re im : Word) (s : State), ¬ Representable (gaussOf re im) →
    ∃ t f, exec (.inv re im) s = .next t ∧ hostRead t = .ok t.rsp ∧
      commandResult (commandWord (.inv re im)) t.rsp = .error f ∧
      f.error = some .representationOverflow ∧ f.remainder ≠ ⟨0, 0⟩ ∧ f.len = BitVec.ofNat 8 (bitlen f.digits) ∧
      (f.ovf = false → t.rsp.status = 0x02 ∧
        gaussOf re im = (digitSum f.digits 128).add (f.remainder.mul (powB 128))) ∧
      (f.ovf = true → t.rsp.status = 0x06 ∧
        ∃ m, m < 128 ∧ (∀ k, m < k → f.digits.getLsbD k = false) ∧
          gaussOf re im = (digitSum f.digits m).add (f.remainder.mul (powB m)))) ∧
  ∀ s : State, s.Ready → s.ports.reqValid = true → decodeOp s.ports.reqCmd = .bad →
    ∃ t, step s = .next t ∧ hostRead t = .ok t.rsp ∧ t.rsp.status = 0x01 ∧
      commandResult s.ports.reqCmd t.rsp = .error ⟨some .invalidVariant, false, ⟨0, 0⟩, 0, 0⟩

end Errors

section Sequencing

/-- R36: what acceptance writes, register by register, and that the five data registers of the response and the ports are
not changed by it. -/
def Obligations.AcceptanceWrites : Prop :=
  ∀ s : State, s.Ready → s.ports.reqValid = true →
    tick s =
      { s with
        rsp := { s.rsp with valid := false }
        op := decodeOp s.ports.reqCmd
        dreg := s.ports.reqA
        scale := 1
        pwrRe := -1
        pwrIm := 1
        qreg := 0
        idx := 0
        errw := 0
        acc := if decodeOp s.ports.reqCmd = .iv then ⟨s.ports.reqA, s.ports.reqB, false⟩ else ⟨0, 0, false⟩
        phase := .run }

/-- R37: what completion writes, and that every other register keeps its value, then and while no request is accepted. -/
def Obligations.CompletionWrites : Prop :=
  (∀ s : State,
    ∃ status : Byte,
      complete s =
        { s with
          rsp := ⟨true, status, s.acc.re, s.acc.im, s.qreg, BitVec.ofNat 8 (bitlen s.qreg)⟩
          phase := .idle } ∧
      status.getLsbD 2 = s.acc.ovf ∧ status.extractLsb' 0 2 = s.errw ∧ (∀ k, 3 ≤ k → status.getLsbD k = false)) ∧
  ∀ s : State, s.phase = .idle → s.ports.rst = false → s.ports.reqValid = false → tick s = s

/-- The three ways `PHASE` changes: IDLE to RUN exactly at an acceptance, RUN to IDLE only at a completion, anything to IDLE
at reset; and while a command runs the ready output is 0 and no port is read (10_state.md section 5). -/
def Obligations.PhaseChanges : Prop :=
  (∀ s : State, s.ports.rst = true → (tick s).phase = .idle) ∧
  (∀ s : State, s.ports.rst = false → s.phase = .idle →
    ((tick s).phase = .run ↔ s.ports.reqValid = true) ∧ (s.ports.reqValid = false → tick s = s)) ∧
  (∀ s : State, s.ports.rst = false → s.phase = .run → (tick s).phase = .idle → (tick s).rsp.valid = true) ∧
  (∀ s : State, s.phase = .run → s.reqReady = false) ∧
  ∀ (s : State) (p : Ports), s.phase = .run → p.rst = s.ports.rst → s.ports.rst = false →
    tick { s with ports := p } = { tick s with ports := p }

/-- A step of an idle machine with a decoded request runs that command; and a table word placed on the ports is the command
the next step runs (10_state.md sections 2 and 5). That one step is the whole command is the model's choice (assumption
log 6), and so are the placing of a table word by `withFetchWord` (log 3) and its layout (log 9). -/
def Obligations.StepRunsDecoded : Prop :=
  (∀ (s : State) (i : Instr), s.Ready → s.ports.reqValid = true → decode (sampleRequest s) = .ok i →
    step s = exec i s) ∧
  ∀ (s : State) (nbits w : Nat) (i : Instr), decodeTableWord nbits w = some i →
    step (s.withFetchWord nbits w) = exec i (s.withFetchWord nbits w)

/-- A step under reset is the reset event, a step of a running machine is one sequencer step, and an idle machine with no
request stays as it is (10_state.md section 5, 70_reset_and_hazards.md section 1). -/
def Obligations.StepWithoutCommand : Prop :=
  (∀ s : State, s.ports.rst = true → step s = .next (resetEvent s)) ∧
  (∀ s : State, s.ports.rst = false → s.phase = .run → step s = .next (seqStep s)) ∧
  ∀ s : State, s.ports.rst = false → s.phase = .idle → s.ports.reqValid = false → step s = .next s

/-- Every step answers a next state: there is no third outcome of a command and nothing stops the machine
(60_exceptions.md section 2). -/
def Obligations.StepAlwaysAnswers : Prop :=
  ∀ s : State, ∃ t, step s = .next t

/-- A command taken as one transition is exactly the run of its sequencer steps: acceptance and then the number of steps of
the table of 70_reset_and_hazards.md section 3. Until the last of them the machine is in RUN, no response is valid, and the
data registers of the response still show the previous one (00_scope.md section 6; that `step` is the coarser of the two
levels is the model's choice, assumption log 6). -/
def Obligations.CommandIsRunOfSteps : Prop :=
  ∀ s : State, s.Ready → s.ports.reqValid = true →
    step s = .next (ticks (1 + stepCount (sampleRequest s)) s) ∧
    ∀ n, n < stepCount (sampleRequest s) →
      (ticks (1 + n) s).phase = .run ∧ (ticks (1 + n) s).rsp = { s.rsp with valid := false }

/-- The step counts: 1 for an undefined command word, 17 for FWD.SCALAR and FWD.BATCH, 2 to 128 for FWD.RECUR; for INV
`LEN_OUT + 1` on success, 129 at the cap, `m + 2` with the overflow in iteration `m` (70_reset_and_hazards.md section 3). -/
def Obligations.StepCountsBounded : Prop :=
  (∀ r : Request, 1 ≤ stepCount r ∧ stepCount r ≤ 129) ∧
  (∀ r : Request, decodeOp r.cmd = .bad → stepCount r = 1) ∧
  (∀ r : Request, decodeOp r.cmd = .fs ∨ decodeOp r.cmd = .fb → stepCount r = 17) ∧
  (∀ r : Request, decodeOp r.cmd = .fr → 2 ≤ stepCount r ∧ stepCount r ≤ 128) ∧
  ∀ (r : Request) (s t : State), decodeOp r.cmd = .iv → exec (.inv r.a r.b) s = .next t →
    (t.rsp.status = 0x00 → stepCount r = t.rsp.len.toNat + 1) ∧
    (t.rsp.status = 0x02 → stepCount r = 129) ∧
    (t.rsp.status = 0x06 → stepCount r = t.idx.toNat + 1)

end Sequencing

section Machine

/-- The response is a function of the request alone: two ready machines, in any two states, given the same request answer
the same response; and a forward command's response does not depend on `REQ_B` (00_scope.md section 6). The host issues
a request through one step, the model's choice (assumption log 6). -/
def Obligations.ResponseDependsOnRequest : Prop :=
  (∀ (s s' : State) (r : Request), s.Ready → s'.Ready →
    ∃ t t' rsp, issue r s = some (t, rsp) ∧ issue r s' = some (t', rsp) ∧ t.rsp = rsp ∧ t'.rsp = rsp) ∧
  ∀ (s : State) (r : Request) (b : Word), s.Ready → cmdDir r.cmd = false →
    (issue r s).map Prod.snd = (issue { r with b := b } s).map Prod.snd

/-- The i-th response of a program is the response its i-th command gets when issued alone after reset (R241 of
70_reset_and_hazards.md, from the reset state of this model, assumption log 1; the response does not depend on it; one step a request, assumption log 6). -/
def Obligations.ProgramResponsesIndependent : Prop :=
  ∀ (program : List Request) (s : State), s.Ready →
    runProgram program s = program.mapM fun r => (issue r State.reset).map Prod.snd

/-- Reset during a command, at any of its steps, abandons it: no response is valid, the machine is idle and ready
(70_reset_and_hazards.md section 1). That the whole state is then the one a reset before the acceptance leaves, so that also
the registers the spec leaves unspecified agree, is the model's choice: free values are drawn with a counter that no command
advances (assumption log 2). -/
def Obligations.ResetAbandonsCommand : Prop :=
  ∀ (s : State) (n : Nat) (p : Ports), s.ports.rst = false → p.rst = true →
    tick { ticks n s with ports := p } = tick { s with ports := p } ∧
    step { ticks n s with ports := p } = .next (tick { s with ports := p }) ∧
    (tick { s with ports := p }).rsp.valid = false ∧ (tick { s with ports := p }).rsp.status = 0x00 ∧
    (tick { s with ports := p }).reqReady = true

/-- The values reset gives: idle, ready, no valid response, `STATUS = 0x00` (10_state.md section 7). The other registers'
values in `State.reset` are the model's choice (assumption log 1) and are not stated. -/
def Obligations.ResetValues : Prop :=
  State.reset.phase = .idle ∧ State.reset.reqReady = true ∧ State.reset.rsp.valid = false ∧
  State.reset.rsp.status = 0x00 ∧
  ∀ s : State, (resetEvent s).phase = .idle ∧ (resetEvent s).reqReady = true ∧ (resetEvent s).rsp.valid = false ∧
    (resetEvent s).rsp.status = 0x00 ∧ (resetEvent s).ports = s.ports

/-- What every command leaves unchanged, and what it leaves as acceptance wrote it because it does not write it: the ports
always; PWR but for FWD.RECUR; SCALE but for FWD.SCALAR; DREG but for FWD.RECUR; QREG but for INV (10_state.md section 3). -/
def Obligations.CommandFrames : Prop :=
  ∀ (i : Instr) (s t : State), exec i s = .next t →
    t.ports = s.ports ∧ t.freeCount = s.freeCount ∧
    ((¬ ∃ d, i = .fwdRecur d) → t.pwrRe = -1 ∧ t.pwrIm = 1 ∧ t.dreg = (encode i).a) ∧
    ((¬ ∃ d, i = .fwdScalar d) → t.scale = 1) ∧
    ((¬ ∃ re im, i = .inv re im) → t.qreg = 0 ∧ t.errw = 0) ∧
    t.op = decodeOp (encode i).cmd

/-- The invariant holds in the reset state of the model (assumption log 1; the response clause needs only the values reset
gives). -/
def Obligations.ResetSatisfiesInvariant : Prop := State.reset.Inv

/-- Every step from any state that meets the invariant meets it again: the response keeps its form, and a running command
keeps its loop invariant (42 to 45, 60_exceptions.md section 1). -/
def Obligations.StepKeepsInvariant : Prop :=
  ∀ s t : State, s.Inv → step s = .next t → t.Inv

/-- The same at the fine level, where acceptance, every sequencer step and reset fall as separate transitions. -/
def Obligations.TransitionKeepsInvariant : Prop :=
  ∀ s : State, s.Inv → (tick s).Inv

end Machine
end

