-- ==== Sys2Proof/Laws/Arith.lean ====
section
/-! SUPPORT. Lemmas about wraparound, bit length and the Gaussian integers of Machine/Arith.lean. -/

namespace Sys2Proof.Machine

/-- An exact integer fits when it lies in the signed 128-bit range (R7). -/
def Fits (v : Int) : Prop := smin ≤ v ∧ v ≤ smax

theorem fits_iff (v : Int) :
    Fits v ↔ -0x80000000000000000000000000000000 ≤ v ∧ v ≤ 0x7FFFFFFFFFFFFFFFFFFFFFFFFFFFFFFF := Iff.rfl

theorem wrap128_fits (v : Int) : Fits (wrap128 v) := by
  simp only [fits_iff, wrap128]; omega

theorem wrap128_of_fits {v : Int} (h : Fits v) : wrap128 v = v := by
  simp only [fits_iff, wrap128] at *; omega

theorem overflows_eq_false_iff (v : Int) : overflows v = false ↔ Fits v := by
  simp only [overflows, bne_eq_false_iff_eq, fits_iff, wrap128]; omega

theorem overflows_iff (v : Int) : overflows v = true ↔ ¬ Fits v := by
  rw [← overflows_eq_false_iff]; simp

theorem overflows_of_fits {v : Int} (h : Fits v) : overflows v = false := (overflows_eq_false_iff v).2 h

/-- A register read as signed fits. -/
theorem toInt_fits (x : Word) : Fits x.toInt := by
  have h1 := BitVec.toInt_lt (x := x)
  have h2 := BitVec.le_toInt (x := x)
  simp only [fits_iff]; norm_num at h1 h2; omega

/-- What a register holds after an exact integer is stored: the wrapped value (R8). -/
theorem store_toInt (v : Int) : (store v).toInt = wrap128 v := by
  have h := wrap128_fits v
  rw [fits_iff] at h
  rw [store, BitVec.toInt_ofInt, Int.bmod_def]
  norm_num
  split <;> omega

theorem store_toInt_of_fits {v : Int} (h : Fits v) : (store v).toInt = v := by
  rw [store_toInt, wrap128_of_fits h]

/-- Storing what a register holds gives the register back. -/
theorem store_of_toInt (x : Word) : store x.toInt = x := by
  rw [store, wrap128_of_fits (toInt_fits x), BitVec.ofInt_toInt]

@[simp] theorem bitlen_zero : bitlen 0#128 = 0 := by decide

@[simp] theorem statusWord_none : statusWord false 0#2 = 0#8 := by decide
@[simp] theorem statusWord_invalid : statusWord false 1#2 = 1#8 := by decide
@[simp] theorem statusWord_capped : statusWord false 2#2 = 2#8 := by decide
@[simp] theorem statusWord_overflowed : statusWord true 2#2 = 6#8 := by decide
@[simp] theorem errorCode_invalid : errorCode .invalidVariant = 1#2 := rfl
@[simp] theorem errorCode_overflow : errorCode .representationOverflow = 2#2 := rfl

@[ext] theorem Gauss.ext_parts {x y : Gauss} (hr : x.re = y.re) (hi : x.im = y.im) : x = y := by
  obtain ⟨a, b⟩ := x
  obtain ⟨c, d⟩ := y
  simp_all

@[simp] theorem Gauss.add_re (x y : Gauss) : (x.add y).re = x.re + y.re := rfl
@[simp] theorem Gauss.add_im (x y : Gauss) : (x.add y).im = x.im + y.im := rfl
@[simp] theorem Gauss.mul_re (x y : Gauss) : (x.mul y).re = x.re * y.re - x.im * y.im := rfl
@[simp] theorem Gauss.mul_im (x y : Gauss) : (x.mul y).im = x.re * y.im + x.im * y.re := rfl
@[simp] theorem Gauss.mulB_re (x : Gauss) : x.mulB.re = -x.re - x.im := rfl
@[simp] theorem Gauss.mulB_im (x : Gauss) : x.mulB.im = x.re - x.im := rfl
@[simp] theorem gaussOf_re (re im : Word) : (gaussOf re im).re = re.toInt := rfl
@[simp] theorem gaussOf_im (re im : Word) : (gaussOf re im).im = im.toInt := rfl
@[simp] theorem Acc.gauss_re (a : Acc) : a.gauss.re = a.re.toInt := rfl
@[simp] theorem Acc.gauss_im (a : Acc) : a.gauss.im = a.im.toInt := rfl

/-- Two accumulators that hold the same Gaussian integer and flag are the same. -/
theorem Acc.eq_of_gauss {a a' : Acc} (h : a.gauss = a'.gauss) (ho : a.ovf = a'.ovf) : a = a' := by
  cases a; cases a'
  have hr := congrArg Gauss.re h
  have hi := congrArg Gauss.im h
  simp_all [BitVec.toInt_inj]

/-- `mulB` is the product with `b^1` (R10). -/
theorem mulB_eq_mul (x : Gauss) : x.mulB = x.mul ⟨-1, 1⟩ := by
  ext <;> simp
  ring

theorem powB_succ (k : Nat) : powB (k + 1) = (powB k).mulB := rfl

/-- Multiplication by b moves across a product. -/
theorem mul_mulB (x y : Gauss) : x.mul y.mulB = x.mulB.mul y := by
  ext <;> simp <;> ring

/-- `b^(m+n) = b^m · b^n`. -/
theorem powB_add (m n : Nat) : powB (m + n) = (powB m).mul (powB n) := by
  induction n with
  | zero => ext <;> simp [powB]
  | succ n ih => rw [← Nat.add_assoc, powB_succ, ih, powB_succ]; ext <;> simp <;> ring

/-- `b^8 = 16` (R10). -/
theorem powB_eight : powB 8 = ⟨16, 0⟩ := by decide

/-- `b^(8g+j) = 16^g · b^j` (R10). -/
theorem powB_group (g j : Nat) : powB (8 * g + j) = ⟨16 ^ g * (powB j).re, 16 ^ g * (powB j).im⟩ := by
  induction g with
  | zero => simp
  | succ g ih =>
    rw [show 8 * (g + 1) + j = 8 + (8 * g + j) by ring, powB_add, powB_eight, ih]
    ext <;> simp <;> ring

theorem digitSum_zero (d : Word) : digitSum d 0 = ⟨0, 0⟩ := rfl

theorem digitSum_succ (d : Word) (n : Nat) :
    digitSum d (n + 1) = if d.getLsbD n then (digitSum d n).add (powB n) else digitSum d n := rfl

/-- The lowest `n` digits are all a sum reads. -/
theorem digitSum_congr {d e : Word} {n : Nat} (h : ∀ k, k < n → d.getLsbD k = e.getLsbD k) :
    digitSum d n = digitSum e n := by
  induction n with
  | zero => rfl
  | succ n ih => rw [digitSum_succ, digitSum_succ, h n (by omega), ih fun k hk => h k (by omega)]

/-- Digits that are zero add nothing. -/
theorem digitSum_of_high_zero {d : Word} {m n : Nat} (hmn : m ≤ n)
    (h : ∀ k, m ≤ k → d.getLsbD k = false) : digitSum d n = digitSum d m := by
  induction n, hmn using Nat.le_induction with
  | base => rfl
  | succ n hn ih => rw [digitSum_succ, h n hn]; simpa using ih

/-- The lowest digit and the rest: `Σ_{k<n+1} d[k]·b^k = d[0] + b·Σ_{k<n} (d>>1)[k]·b^k` (R171, R179). -/
theorem digitSum_shift (d : Word) (n : Nat) :
    digitSum d (n + 1) =
      Gauss.add ⟨if d.getLsbD 0 then 1 else 0, 0⟩ (digitSum (d >>> 1) n).mulB := by
  induction n with
  | zero => rw [digitSum_succ]; split <;> simp_all [digitSum, powB, Gauss.add, Gauss.mulB]
  | succ n ih =>
    rw [digitSum_succ d (n + 1), ih, digitSum_succ (d >>> 1) n, powB_succ]
    have hb : (d >>> 1).getLsbD n = d.getLsbD (n + 1) := by simp [Nat.add_comm]
    rw [hb]
    split <;> (ext <;> simp <;> ring)

end Sys2Proof.Machine
end

