-- ==== Sys2Proof/Laws/Ops.lean ====
section
/-! SUPPORT. One lemma for each shared operation that says once what it can do. -/

namespace Sys2Proof.Machine

/-- `acc_add` when both exact sums fit: the pair is the sum and the flag is as before (R104). -/
theorem accAdd_of_fits {a : Acc} {dre dim : Word}
    (hr : Fits (a.re.toInt + dre.toInt)) (hi : Fits (a.im.toInt + dim.toInt)) :
    (accAdd a dre dim).gauss = a.gauss.add (gaussOf dre dim) ∧ (accAdd a dre dim).ovf = a.ovf := by
  constructor
  · ext <;> simp [accAdd, store_toInt_of_fits, hr, hi]
  · simp [accAdd, overflows_of_fits, hr, hi]

/-- `acc_add` never clears the flag (R101, R104). -/
theorem accAdd_ovf_of_ovf {a : Acc} {dre dim : Word} (h : a.ovf = true) : (accAdd a dre dim).ovf = true := by
  simp [accAdd, h]

/-- What `acc_divb` can do: either both numerators fit and the pair is their halves, or one does not and only the flag
changes (R105). -/
theorem accDivb_cases (a : Acc) (c : Bool) :
    (Fits (a.im.toInt - a.re.toInt + (if c then 1 else 0)) ∧ Fits (-a.re.toInt - a.im.toInt + (if c then 1 else 0)) ∧
      (accDivb a c).gauss =
        ⟨(a.im.toInt - a.re.toInt + (if c then 1 else 0)) / 2, (-a.re.toInt - a.im.toInt + (if c then 1 else 0)) / 2⟩ ∧
      (accDivb a c).ovf = a.ovf) ∨
    (¬(Fits (a.im.toInt - a.re.toInt + (if c then 1 else 0)) ∧ Fits (-a.re.toInt - a.im.toInt + (if c then 1 else 0))) ∧
      accDivb a c = { a with ovf := true }) := by
  set n1 := a.im.toInt - a.re.toInt + (if c then 1 else 0) with hn1
  set n2 := -a.re.toInt - a.im.toInt + (if c then 1 else 0) with hn2
  by_cases h : Fits n1 ∧ Fits n2
  · refine .inl ⟨h.1, h.2, ?_⟩
    have hd : accDivb a c = { a with re := store (n1 / 2), im := store (n2 / 2) } := by
      simp only [accDivb]
      rw [← hn1, ← hn2, overflows_of_fits h.1, overflows_of_fits h.2]
      rfl
    have h1 : Fits (n1 / 2) := by have := h.1; rw [fits_iff] at *; omega
    have h2 : Fits (n2 / 2) := by have := h.2; rw [fits_iff] at *; omega
    rw [hd]
    refine ⟨?_, rfl⟩
    ext <;> simp [store_toInt_of_fits, h1, h2]
  · refine .inr ⟨h, ?_⟩
    have ho : (overflows n1 || overflows n2) = true := by
      by_cases h1 : Fits n1
      · rw [(overflows_iff n2).2 fun h2 => h ⟨h1, h2⟩, Bool.or_true]
      · rw [(overflows_iff n1).2 h1, Bool.true_or]
    simp only [accDivb]
    rw [← hn1, ← hn2, ho]
    rfl

/-- Bit 0 of a register is its residue modulo 2 (R107). -/
theorem toInt_emod_two (x : Word) : x.toInt % 2 = if x.getLsbD 0 then 1 else 0 := by
  have h : x.getLsbD 0 = decide (x.toNat % 2 = 1) := by
    rw [BitVec.getLsbD, Nat.testBit_zero]
  rw [BitVec.toInt_eq_toNat_cond, h]
  split <;> simp only [decide_eq_true_eq] <;> split <;> omega

/-- The digit is 1 exactly when the two components differ in parity (R107, R171). -/
theorem accParity_eq (a : Acc) : accParity a = decide ((a.re.toInt + a.im.toInt) % 2 = 1) := by
  have hr := toInt_emod_two a.re
  have hi := toInt_emod_two a.im
  rw [accParity, Bool.eq_iff_iff, decide_eq_true_eq]
  cases hx : a.re.getLsbD 0 <;> cases hy : a.im.getLsbD 0 <;> rw [hx] at hr <;> rw [hy] at hi <;>
    simp at hr hi ⊢ <;> omega

/-- `acc_is_zero` tests the Gaussian integer (R106). -/
theorem accIsZero_iff (a : Acc) : accIsZero a = true ↔ a.gauss = ⟨0, 0⟩ := by
  simp only [accIsZero, Bool.and_eq_true, beq_iff_eq]
  constructor
  · rintro ⟨hr, hi⟩; ext <;> simp [hr, hi]
  · intro h
    have hr := congrArg Gauss.re h
    have hi := congrArg Gauss.im h
    simp only [Acc.gauss_re, Acc.gauss_im] at hr hi
    exact ⟨BitVec.toInt_inj.1 (by simpa using hr), BitVec.toInt_inj.1 (by simpa using hi)⟩

/-- A sequencer step is one of seven (R35). -/
theorem seqStep_cases (s : State) :
    (s.op = .bad ∧ seqStep s = raiseError .invalidVariant s) ∨
    (s.op = .fs ∧ s.idx.toNat < 16 ∧ seqStep s = fsStep s) ∨
    (s.op = .fb ∧ s.idx.toNat < 16 ∧ seqStep s = fbStep s) ∨
    (s.op = .fr ∧ s.idx = 0 ∧ seqStep s = frBaseStep s) ∨
    (s.op = .fr ∧ s.idx ≠ 0 ∧ s.dreg ≠ 0 ∧ seqStep s = frStep s) ∨
    (s.op = .iv ∧ ivContinues (extractionOf s) = true ∧ seqStep s = ivStep s) ∨
    (s.op = .iv ∧ ivContinues (extractionOf s) = false ∧ seqStep s = ivFinish s) ∨
    (((s.op = .fs ∨ s.op = .fb) ∧ 16 ≤ s.idx.toNat ∨ s.op = .fr ∧ s.idx ≠ 0 ∧ s.dreg = 0) ∧
      seqStep s = complete s) := by
  cases h : s.op <;> simp only [seqStep, h] <;> (try split) <;> (try split) <;> simp_all

/-- A sequencer step leaves the ports and the free-value counter alone (R35). -/
theorem seqStep_keeps (s : State) :
    (seqStep s).ports = s.ports ∧ (seqStep s).freeCount = s.freeCount := by
  have hf : (ivFinish s).ports = s.ports ∧ (ivFinish s).freeCount = s.freeCount := by
    rw [ivFinish]; split <;> exact ⟨rfl, rfl⟩
  rcases seqStep_cases s with ⟨-, h⟩ | ⟨-, -, h⟩ | ⟨-, -, h⟩ | ⟨-, -, h⟩ | ⟨-, -, -, h⟩ | ⟨-, -, h⟩ | ⟨-, -, h⟩ | ⟨-, h⟩ <;>
    rw [h] <;> first | exact ⟨rfl, rfl⟩ | exact hf

end Sys2Proof.Machine
end

