-- ==== Sys2Proof/Laws/PerInstr.lean ====
section
/-! SUPPORT. What holds of every command as syntax, one lemma for each constructor. -/

namespace Sys2Proof.Laws.EncodedWord

/-- The request that carries a command names a defined command word, the one of the opcode table, and its record is that
word above the two operands (R80, R82). -/
def Statement (i : Instr) : Prop :=
  (encode i).cmd = commandWord i ∧ definedCommandWords.contains (commandWord i) = true ∧
  (encode i).record = commandWord i ++ (encode i).b ++ (encode i).a

theorem fwdScalar (d : Word) : Statement (.fwdScalar d) := ⟨rfl, rfl, rfl⟩

theorem fwdBatch (d : Word) : Statement (.fwdBatch d) := ⟨rfl, rfl, rfl⟩

theorem fwdRecur (d : Word) : Statement (.fwdRecur d) := ⟨rfl, rfl, rfl⟩

theorem inv (re im : Word) : Statement (.inv re im) := ⟨rfl, rfl, rfl⟩

end Sys2Proof.Laws.EncodedWord
end

