-- ==== Sys2Proof/Laws/State.lean ====
section
/-! SUPPORT. One lemma for each field after each named update of the state. -/

namespace Sys2Proof.Machine

section accept
variable (op : Op) (a b : Word) (s : State)

@[simp] theorem accept_ports : (accept op a b s).ports = s.ports := rfl
@[simp] theorem accept_freeCount : (accept op a b s).freeCount = s.freeCount := rfl
@[simp] theorem accept_rsp : (accept op a b s).rsp = { s.rsp with valid := false } := rfl
@[simp] theorem accept_phase : (accept op a b s).phase = .run := rfl
@[simp] theorem accept_op : (accept op a b s).op = op := rfl
@[simp] theorem accept_idx : (accept op a b s).idx = 0 := rfl
@[simp] theorem accept_errw : (accept op a b s).errw = 0 := rfl
@[simp] theorem accept_dreg : (accept op a b s).dreg = a := rfl
@[simp] theorem accept_scale : (accept op a b s).scale = 1 := rfl
@[simp] theorem accept_pwrRe : (accept op a b s).pwrRe = -1 := rfl
@[simp] theorem accept_pwrIm : (accept op a b s).pwrIm = 1 := rfl
@[simp] theorem accept_qreg : (accept op a b s).qreg = 0 := rfl
@[simp] theorem accept_acc : (accept op a b s).acc = if op = .iv then accLoad a b else accClear := rfl

end accept

section complete
variable (s : State)

@[simp] theorem complete_ports : (complete s).ports = s.ports := rfl
@[simp] theorem complete_freeCount : (complete s).freeCount = s.freeCount := rfl
@[simp] theorem complete_phase : (complete s).phase = .idle := rfl
@[simp] theorem complete_op : (complete s).op = s.op := rfl
@[simp] theorem complete_idx : (complete s).idx = s.idx := rfl
@[simp] theorem complete_errw : (complete s).errw = s.errw := rfl
@[simp] theorem complete_dreg : (complete s).dreg = s.dreg := rfl
@[simp] theorem complete_scale : (complete s).scale = s.scale := rfl
@[simp] theorem complete_pwrRe : (complete s).pwrRe = s.pwrRe := rfl
@[simp] theorem complete_pwrIm : (complete s).pwrIm = s.pwrIm := rfl
@[simp] theorem complete_qreg : (complete s).qreg = s.qreg := rfl
@[simp] theorem complete_acc : (complete s).acc = s.acc := rfl
@[simp] theorem complete_rsp_valid : (complete s).rsp.valid = true := rfl
@[simp] theorem complete_rsp_status : (complete s).rsp.status = statusWord s.acc.ovf s.errw := rfl
@[simp] theorem complete_rsp_re : (complete s).rsp.re = s.acc.re := rfl
@[simp] theorem complete_rsp_im : (complete s).rsp.im = s.acc.im := rfl
@[simp] theorem complete_rsp_q : (complete s).rsp.q = s.qreg := rfl
@[simp] theorem complete_rsp_len : (complete s).rsp.len = BitVec.ofNat 8 (bitlen s.qreg) := rfl

end complete

section raiseError
variable (e : CommandError) (s : State)

@[simp] theorem raiseError_ports : (raiseError e s).ports = s.ports := rfl
@[simp] theorem raiseError_freeCount : (raiseError e s).freeCount = s.freeCount := rfl
@[simp] theorem raiseError_phase : (raiseError e s).phase = .idle := rfl
@[simp] theorem raiseError_errw : (raiseError e s).errw = errorCode e := rfl
@[simp] theorem raiseError_acc : (raiseError e s).acc = s.acc := rfl
@[simp] theorem raiseError_qreg : (raiseError e s).qreg = s.qreg := rfl
@[simp] theorem raiseError_op : (raiseError e s).op = s.op := rfl
@[simp] theorem raiseError_idx : (raiseError e s).idx = s.idx := rfl
@[simp] theorem raiseError_dreg : (raiseError e s).dreg = s.dreg := rfl
@[simp] theorem raiseError_scale : (raiseError e s).scale = s.scale := rfl
@[simp] theorem raiseError_pwrRe : (raiseError e s).pwrRe = s.pwrRe := rfl
@[simp] theorem raiseError_pwrIm : (raiseError e s).pwrIm = s.pwrIm := rfl
@[simp] theorem raiseError_rsp :
    (raiseError e s).rsp =
      ⟨true, statusWord s.acc.ovf (errorCode e), s.acc.re, s.acc.im, s.qreg, BitVec.ofNat 8 (bitlen s.qreg)⟩ := rfl

end raiseError

section resetEvent
variable (s : State)

@[simp] theorem resetEvent_ports : (resetEvent s).ports = s.ports := rfl
@[simp] theorem resetEvent_phase : (resetEvent s).phase = .idle := rfl
@[simp] theorem resetEvent_rsp_valid : (resetEvent s).rsp.valid = false := rfl
@[simp] theorem resetEvent_rsp_status : (resetEvent s).rsp.status = 0 := rfl
@[simp] theorem resetEvent_freeCount : (resetEvent s).freeCount = s.freeCount + 10 := rfl

/-- A reset event keeps the ports and the free-value counter's history, and nothing else of the state before it. -/
theorem resetEvent_congr {s t : State} (hp : s.ports = t.ports) (hn : s.freeCount = t.freeCount) :
    resetEvent s = resetEvent t := by
  simp only [resetEvent, hp, hn]

end resetEvent

section drive
variable (r : Request) (s : State)

@[simp] theorem drive_reqValid : (s.drive r).ports.reqValid = true := rfl
@[simp] theorem drive_rst : (s.drive r).ports.rst = s.ports.rst := rfl
@[simp] theorem drive_request : sampleRequest (s.drive r) = r := rfl
@[simp] theorem drive_phase : (s.drive r).phase = s.phase := rfl
@[simp] theorem drive_rsp : (s.drive r).rsp = s.rsp := rfl

end drive

section fields

/-- `STATUS.ERR` of the status word made of a code (R25, R37). -/
@[simp] theorem statusErr_statusWord (ovf : Bool) (err : BitVec 2) : statusErr (statusWord ovf err) = err := by
  revert ovf err; decide

/-- `STATUS.OVF` of the status word made of a flag (R25, R37). -/
@[simp] theorem statusOvf_statusWord (ovf : Bool) (err : BitVec 2) : statusOvf (statusWord ovf err) = ovf := by
  revert ovf err; decide

@[simp] theorem errorOf_errorCode (e : CommandError) : errorOf (errorCode e) = some e := by cases e <;> decide

@[simp] theorem cmdDir_fwdScalar (d : Word) : cmdDir (commandWord (.fwdScalar d)) = false := by
  rw [commandWord]; decide
@[simp] theorem cmdDir_fwdBatch (d : Word) : cmdDir (commandWord (.fwdBatch d)) = false := by
  rw [commandWord]; decide
@[simp] theorem cmdDir_fwdRecur (d : Word) : cmdDir (commandWord (.fwdRecur d)) = false := by
  rw [commandWord]; decide
@[simp] theorem cmdDir_inv (re im : Word) : cmdDir (commandWord (.inv re im)) = true := by
  rw [commandWord]; decide

end fields

section host
variable (cmd : Byte) (r : Response) (s : State)

@[simp] theorem hostRead_valid (h : s.rsp.valid = true) : hostRead s = .ok s.rsp := by simp [hostRead, h]

@[simp] theorem hostRead_invalid (h : s.rsp.valid = false) : hostRead s = .error .responseNotValid := by
  simp [hostRead, h]

/-- A success gives the result proper (R87). -/
theorem commandResult_success (h : statusErr r.status = 0) : commandResult cmd r = .ok (resultProper cmd r) :=
  if_pos h

/-- A failure gives an error value with the exposed registers (R211). -/
theorem commandResult_failure (h : statusErr r.status ≠ 0) :
    commandResult cmd r =
      .error ⟨errorOf (statusErr r.status), statusOvf r.status, gaussOf r.re r.im, r.q, r.len⟩ :=
  if_neg h

end host

section withFetchWord
variable (s : State) (nbits w : Nat)

@[simp] theorem withFetchWord_request :
    sampleRequest (s.withFetchWord nbits w) = requestOfTableWord nbits w := rfl
@[simp] theorem withFetchWord_rst : (s.withFetchWord nbits w).ports.rst = false := rfl
@[simp] theorem withFetchWord_reqValid : (s.withFetchWord nbits w).ports.reqValid = true := rfl
@[simp] theorem withFetchWord_phase : (s.withFetchWord nbits w).phase = .idle := rfl
@[simp] theorem withFetchWord_rsp : (s.withFetchWord nbits w).rsp = s.rsp := rfl

end withFetchWord

end Sys2Proof.Machine
end

