-- ==== Sys2Proof/Laws/Step.lean ====
section
/-! SUPPORT. What one step can do, said once. -/

namespace Sys2Proof.Machine

/-- Every command answers a next state. -/
theorem exec_next (i : Instr) (s : State) : ∃ t, exec i s = .next t := by
  cases i <;> exact ⟨_, rfl⟩

/-- Every command answers a completed state whose ports and free-value counter are those it started from. -/
theorem exec_keeps {i : Instr} {s t : State} (h : exec i s = .next t) :
    t.ports = s.ports ∧ t.freeCount = s.freeCount ∧ t.phase = .idle ∧ t.rsp.valid = true := by
  cases i with
  | fwdScalar d => cases h; exact ⟨rfl, rfl, rfl, rfl⟩
  | fwdBatch d => cases h; exact ⟨rfl, rfl, rfl, rfl⟩
  | fwdRecur d => cases h; exact ⟨rfl, rfl, rfl, rfl⟩
  | inv re im =>
    cases h
    rw [ivFinish]
    split <;> exact ⟨rfl, rfl, rfl, rfl⟩

/-- The step's cases: a reset event, a sequencer step, a command, an undefined command word, or nothing. -/
theorem step_cases (s : State) :
    (s.ports.rst = true ∧ step s = .next (resetEvent s)) ∨
    (s.ports.rst = false ∧ s.phase = .run ∧ step s = .next (seqStep s)) ∨
    (s.ports.rst = false ∧ s.phase = .idle ∧ s.ports.reqValid = true ∧
      ∃ i, decode (sampleRequest s) = .ok i ∧ step s = exec i s) ∨
    (s.ports.rst = false ∧ s.phase = .idle ∧ s.ports.reqValid = true ∧
      (∃ e, decode (sampleRequest s) = .error e) ∧
      step s = execInvalidVariant s.ports.reqA s.ports.reqB s) ∨
    (s.ports.rst = false ∧ s.phase = .idle ∧ s.ports.reqValid = false ∧ step s = .next s) := by
  rw [step]
  cases hr : s.ports.rst
  · cases hp : s.phase
    · cases hv : s.ports.reqValid
      · simp
      · cases hd : decode (sampleRequest s) <;> simp
    · simp
  · simp

end Sys2Proof.Machine
end

