-- ==== Sys2Proof/Tests/Slice0.lean ====
section
/-! SUPPORT. Tests. Expected results come from spec/95_test_vectors.md (section and row named) or from the encoding of
spec/30_encoding.md; the witnesses show a concrete input that meets the hypotheses of a statement. -/

namespace Sys2Proof.Tests

open Sys2Proof Sys2Proof.Machine

set_option Elab.async false

/-- The response of a command issued to the machine right after reset. -/
def respond (i : Instr) : Option Response := (answered (exec i State.reset)).map (·.rsp)

/-- The response of a request presented right after reset. -/
def respondTo (r : Request) : Option Response := (issue r State.reset).map Prod.snd

/-- A response that carries a Gaussian integer and no error. -/
def forwardResponse (re im : Int) : Response := ⟨true, 0x00, BitVec.ofInt 128 re, BitVec.ofInt 128 im, 0, 0⟩

section WellFormed

theorem test_wf_word_above_inverse : Request.wf ⟨0x81, 1, 0⟩ = false := by decide
theorem test_wf_word_above_forward : Request.wf ⟨0x03, 0xFF, 0⟩ = false := by decide
theorem test_wf_defined_words : definedCommandWords.all (fun c => Request.wf ⟨c, 5, 6⟩) = true := by decide
theorem test_wf_scalar_too_large : (Line.fwdScalar (2 ^ 128)).wf = false := by decide
theorem test_wf_scalar_too_small : (Line.fwdScalar (-2 ^ 127 - 1)).wf = false := by decide
theorem test_wf_batch_too_large : (Line.fwdBatch (2 ^ 128)).wf = false := by decide
theorem test_wf_recur_too_large : (Line.fwdRecur (2 ^ 128)).wf = false := by decide
theorem test_wf_pseudo_too_large : (Line.fwd (2 ^ 128)).wf = false := by decide
theorem test_wf_inv_real_too_small : (Line.inv (-2 ^ 127 - 1) 0).wf = false := by decide
theorem test_wf_inv_imag_too_large : (Line.inv 0 (2 ^ 128)).wf = false := by decide
theorem test_wf_raw_word_too_large : (Line.cmd 256 0 0).wf = false := by decide
theorem test_wf_raw_operand_too_large : (Line.cmd 0x81 (2 ^ 128) 0).wf = false := by decide
theorem test_wf_extremes : (Line.inv (-2 ^ 127) (2 ^ 128 - 1)).wf = true := by decide

end WellFormed

section Decoding

/-- `FWD.SCALAR`: DIR = 0 (bit 7), VAR = 0 (bits 6:0); section 2. -/
theorem test_word_fwd_scalar : decode ⟨0b0_0000000, 0xFF, 7⟩ = .ok (.fwdScalar 0xFF) := by decide
/-- `FWD.BATCH`: DIR = 0, VAR = 1. -/
theorem test_word_fwd_batch : decode ⟨0b0_0000001, 0xFF, 7⟩ = .ok (.fwdBatch 0xFF) := by decide
/-- `FWD.RECUR`: DIR = 0, VAR = 2. -/
theorem test_word_fwd_recur : decode ⟨0b0_0000010, 0xFF, 7⟩ = .ok (.fwdRecur 0xFF) := by decide
/-- `INV`: DIR = 1, VAR = 0; the real part is `REQ_A`, the imaginary part `REQ_B`. -/
theorem test_word_inv : decode ⟨0b1_0000000, 3, 4⟩ = .ok (.inv 3 4) := by decide
/-- Variant 2 exists for forward only. -/
theorem test_word_inverse_variant_two : decode ⟨0b1_0000010, 3, 4⟩ = .error (.invalidVariant 0x82) := by decide
/-- Section 9, P1 row 2: `INV -6, -3` as its 264-bit record. -/
theorem test_record_inv :
    decodeRecord 0x80FFFFFFFFFFFFFFFFFFFFFFFFFFFFFFFDFFFFFFFFFFFFFFFFFFFFFFFFFFFFFFFA =
      .ok (.inv (-6) (-3)) := by decide +kernel
/-- Section 9, P3 row 1: `CMD 0x81 1, 0` as its record. -/
theorem test_record_invalid :
    decodeRecord 0x810000000000000000000000000000000000000000000000000000000000000001 =
      .error (.invalidVariant 0x81) := by decide +kernel
/-- The same record from the listing syntax. -/
theorem test_listing_inv : (assemble (.inv (-6) (-3))).record =
    0x80FFFFFFFFFFFFFFFFFFFFFFFFFFFFFFFDFFFFFFFFFFFFFFFFFFFFFFFFFFFFFFFA := by decide +kernel
/-- The codes of `OP` and `PHASE` (R33). -/
theorem test_codes :
    opCode .fs = 0 ∧ opCode .fb = 1 ∧ opCode .fr = 2 ∧ opCode .iv = 4 ∧ opCode .bad = 7 ∧
    phaseCode .idle = 0 ∧ phaseCode .run = 1 := by decide
theorem test_fetch_runs_table_word :
    step (State.reset.withFetchWord 8 0x80) = exec (.inv 0 0) (State.reset.withFetchWord 8 0x80) := rfl
theorem test_table_words :
    decodeTableWord 8 0x00 = some (.fwdScalar 0) ∧ decodeTableWord 8 0x01 = some (.fwdBatch 0) ∧
    decodeTableWord 8 0x02 = some (.fwdRecur 0) ∧ decodeTableWord 8 0x80 = some (.inv 0 0) ∧
    decodeTableWord 8 0xFF = none := by decide

end Decoding

section Results

/-- Section 5: `0xFF` gives (-6, -3). -/
theorem test_scalar_low_byte : respond (.fwdScalar 0xFF) = some (forwardResponse (-6) (-3)) := by decide +kernel
/-- Section 5, minimum real: `0x92` in every group. -/
theorem test_scalar_minimum_real :
    respond (.fwdScalar 0x92929292929292929292929292929292) =
      some (forwardResponse (-15987178197214944733) (-8608480567731124087)) := by decide +kernel
/-- Section 5. -/
theorem test_batch_mixed :
    respond (.fwdBatch 0x0123456789ABCDEFFEDCBA9876543210) =
      some (forwardResponse 1446690866097155052 (-188422221840370224)) := by decide +kernel
/-- Section 1, S9: only bit 127. -/
theorem test_batch_top_digit :
    respond (.fwdBatch 0x80000000000000000000000000000000) =
      some (forwardResponse (-9223372036854775808) (-9223372036854775808)) := by decide +kernel
/-- Section 1, S4. -/
theorem test_recur_third_digit : respond (.fwdRecur 0x4) = some (forwardResponse 0 (-2)) := by decide +kernel
/-- Section 9, P4 row 1: the power ends at `b^127` and `IDX` at 128. -/
theorem test_recur_longest :
    (answered (exec (.fwdRecur 0x80000000000000000000000000000000) State.reset)).map
        (fun t => (t.pwrRe.toInt, t.pwrIm.toInt, t.idx.toNat)) =
      some (-9223372036854775808, -9223372036854775808, 128) := by decide +kernel
/-- Section 6. -/
theorem test_inv_small : respond (.inv 5 (-3)) = some ⟨true, 0x00, 0, 0, 0x2E, 6⟩ := by decide +kernel
/-- Section 7: overflow detected in iteration 1. -/
theorem test_inv_overflow_second :
    respond (.inv 1 (store (smin + 1))) = some ⟨true, 0x06, store (-2 ^ 126), store (2 ^ 126 - 1), 0x2, 2⟩ := by
  decide +kernel
/-- Section 9, P3 row 4. -/
theorem test_invalid_forward : respondTo ⟨0x03, 0xFF, 0⟩ = some ⟨true, 0x01, 0, 0, 0, 0⟩ := by decide +kernel
/-- Section 3: the real sum overflows, the imaginary does not. -/
theorem test_acc_add_one_overflows :
    accAdd ⟨store (2 ^ 126), store (2 ^ 126), false⟩ (store (2 ^ 126)) (store (-2 ^ 126 - 1)) =
      ⟨store smin, -1, true⟩ := by decide
/-- Section 3. -/
theorem test_acc_divb_odd : accDivb ⟨-6, -3, false⟩ (accParity ⟨-6, -3, false⟩) = ⟨2, 5, false⟩ := by decide
/-- Section 4. -/
theorem test_lookup : ctContrib 3 (store (2 ^ 32)) = (store (2 ^ 33), store (2 ^ 33)) := by decide
/-- Section 5.1, group 4. -/
theorem test_dot : (dot8 realRow (lane 0x98 0)).toInt = -10 ∧ (dot8 imagRow (lane 0x98 0)).toInt = -6 := by decide
/-- Section 5.2, the second row: one iteration from IDX = 2. -/
theorem test_recur_iteration :
    frIteration ⟨-1, 1, 0x3F, ⟨0, 1, false⟩, 2⟩ = ⟨0, -2, 0x1F, ⟨0, -1, false⟩, 3⟩ := by decide

end Results

section Witnesses

/-- A machine right after reset to which a request is presented. -/
def presented (r : Request) : State := State.reset.drive r

theorem witness_bit_length : (1 : Word) ≠ 0 ∧ (-1 : Word) ≠ 0 := by decide

theorem witness_encode_of_decode :
    (∃ w, decodeRecord w = .ok (.fwdRecur 1)) ∧ (∃ w, decodeRecord w = .ok (.inv (-1) 0)) ∧
    (∃ re im, Instr.inv (-1) 0 = .inv re im) ∧ ¬ ∃ re im, Instr.fwdRecur 1 = .inv re im :=
  ⟨⟨0x02#8 ++ 9#128 ++ 1#128, by decide⟩, ⟨0x80#8 ++ 0#128 ++ (-1 : Word), by decide⟩, ⟨_, _, rfl⟩,
    by rintro ⟨_, _, h⟩; cases h⟩

theorem witness_listing :
    (Line.fwd (-2 ^ 127)).wf = true ∧ (Line.fwd (2 ^ 128 - 1)).wf = true ∧
    (smin ≤ smin ∧ smin ≤ smax ∧ smax ≤ smax) ∧ (Line.cmd 255 (-1) 0).wf = true ∧ (Line.cmd 0 0 0).wf = true := by
  decide

theorem witness_accept_loads : Op.iv = .iv ∧ Op.bad ≠ .iv := by decide

/-- Both clauses of the division: a numerator at `2^127` is out, one at `2^127 - 2` is in. -/
theorem witness_division_clauses :
    ((2 : Int) ^ 127 ≠ wrap128 (2 ^ 127)) ∧ ¬((2 : Int) ^ 127 - 2 ≠ wrap128 (2 ^ 127 - 2)) ∧
    (accDivb ⟨store smax, 0, false⟩ (accParity ⟨store smax, 0, false⟩)).ovf = false := by decide

theorem witness_parity : accParity ⟨1, 0, false⟩ = true ∧ accIsZero ⟨0, 0, true⟩ = true := by decide

theorem witness_order :
    List.Perm [((1 : Word), (0 : Word)), (-1, 0)] [(-1, 0), (1, 0)] ∧ [127, 0].Nodup ∧ ∀ k ∈ [127, 0], k < 128 :=
  ⟨List.Perm.swap _ _ _, by decide, by decide⟩

theorem witness_powers : ∀ k ∈ ({0, 127} : Finset Nat), k < 128 := by decide

theorem witness_lookup :
    ((0 : Nat) < 16 ∧ (1 : Word).toNat = 16 ^ 0) ∧ (15 < 16 ∧ (BitVec.ofNat 128 (2 ^ 60)).toNat = 16 ^ 15) := by decide

theorem witness_lanes :
    ∀ j, lane 0xA5 0 j = 0 ∨ lane 0xA5 0 j = 1 := by decide

theorem witness_shift :
    (|(-14 : BitVec 32).toInt| * 16 ^ 15 < 2 ^ 127 ∧ |(14 : BitVec 32).toInt| ≤ 14 ∧ 15 ≤ 15) ∧
    ((7 : Nat) ≤ 7 ∧ 7 ≤ 15) := by
  rw [abs_of_nonpos (by decide), abs_of_nonneg (by decide)]
  decide

theorem witness_one_byte : group 0x1FF 0 = group 0x2FF 0 ∧ (0x1FF : Word) ≠ 0x2FF := by decide

theorem witness_group_pass :
    (15 : Nat) < 16 ∧ [7, 6, 5, 4, 3, 2, 1, 0].Perm bitPositions ∧
    (accClear).gauss = digitSum (1 <<< 127) (8 * 15) ∧ accClear.ovf = false :=
  ⟨by decide, by decide, by decide +kernel, rfl⟩

theorem witness_short_recurrence : (3 : Word).toNat < 4 := by decide

theorem witness_expansion : value 0x2 = value 0x2 := rfl

theorem witness_inverse_of_value : gaussOf (-6) (-3) = value 0xFF := by decide +kernel

/-- The real part of a digit string's value is at most the sum of the positive real parts of the powers. -/
theorem digitSum_re_le (d : Word) (n : Nat) :
    (digitSum d n).re ≤ ((List.range n).map fun k => max 0 (powB k).re).sum := by
  induction n with
  | zero => simp [digitSum]
  | succ n ih =>
    rw [digitSum_succ, List.range_succ, List.map_append, List.sum_append]
    simp only [List.map_cons, List.map_nil, List.sum_cons, List.sum_nil]
    split
    · rw [Gauss.add_re]; omega
    · omega

theorem positive_powers : ((List.range 128).map fun k => max 0 (powB k).re).sum = 7 * boundK := by decide +kernel

/-- `2^65` has no 128-digit expansion (section 1, S13). -/
theorem witness_not_representable : ¬ Representable (gaussOf (store (2 ^ 65)) 0) := by
  rintro ⟨e, h⟩
  have h1 := digitSum_re_le e 128
  rw [positive_powers] at h1
  have h2 : (value e).re = 2 ^ 65 := by rw [h]; decide
  rw [value] at h2
  simp only [boundK] at h1
  omega

/-- The three clauses of the round trip: a value, a success and an unrepresentable pair. -/
theorem witness_round_trip :
    value 0x2 = gaussOf (-1) 1 ∧
    (respond (.inv (-1) 1)).map (fun r => statusErr r.status) = some 0 ∧
    ¬ Representable (gaussOf (store (2 ^ 65)) 0) :=
  ⟨by decide +kernel, by decide +kernel, witness_not_representable⟩

theorem witness_inverse_of_forward :
    ∃ t u, exec (.fwdBatch 0x4) State.reset = .next t ∧ exec (.inv t.rsp.re t.rsp.im) t = .next u :=
  ⟨_, _, rfl, rfl⟩

/-- A failing input (its status is not 0) with a two-digit expansion and a rest. -/
theorem witness_digits :
    (∃ t, exec (.inv (store (2 ^ 64)) 1) State.reset = .next t) ∧
    (respond (.inv (store (2 ^ 64)) 1)).map (fun r => decide (statusErr r.status ≠ 0)) = some true ∧
    gaussOf (store (2 ^ 64)) 1 = (digitSum 0x3 128).add (Gauss.mul ⟨1, 0⟩ (powB 128)) :=
  ⟨⟨_, rfl⟩, by decide +kernel, by decide +kernel⟩

theorem witness_overflow :
    (∃ t, exec (.inv (store smin) (store smax)) State.reset = .next t) ∧
    (respond (.inv (store smin) (store smax))).map (fun r => statusOvf r.status) = some true :=
  ⟨⟨_, rfl⟩, by decide +kernel⟩

theorem witness_outside_bounds :
    ¬ ((store (7 * boundK + 1)).toInt ≤ 7 * boundK) ∧ ¬ (-14 * boundK ≤ (store (-14 * boundK - 1)).toInt) ∧
    ¬ ((gaussOf (store (-13 * boundK)) (store (11 * boundK))).norm ≤ 260 * boundK ^ 2) := by decide

/-- A presented request with an undefined command word, and the conditions of acceptance. -/
theorem witness_invalid :
    (presented ⟨0x81, 1, 0⟩).Ready ∧ (presented ⟨0x81, 1, 0⟩).ports.reqValid = true ∧
    decodeOp (presented ⟨0x81, 1, 0⟩).ports.reqCmd = .bad := by decide

/-- A presented request that decodes, and one placed as a table word. -/
theorem witness_step_runs :
    (presented ⟨0x80, 5, -3⟩).Ready ∧ (presented ⟨0x80, 5, -3⟩).ports.reqValid = true ∧
    decode (sampleRequest (presented ⟨0x80, 5, -3⟩)) = .ok (.inv 5 (-3)) ∧
    decodeTableWord 8 0x02 = some (.fwdRecur 0) := by decide

/-- A machine in the middle of INV, one under reset and one idle with no request. -/
theorem witness_other_steps :
    ((tick (presented ⟨0x80, 5, -3⟩)).ports.rst = false ∧ (tick (presented ⟨0x80, 5, -3⟩)).phase = .run) ∧
    ({ State.reset with ports := ⟨true, false, 0, 0, 0⟩ } : State).ports.rst = true ∧
    (State.reset.ports.rst = false ∧ State.reset.phase = .idle ∧ State.reset.ports.reqValid = false) := by decide

/-- A running machine whose next transition completes: an undefined command word after acceptance. -/
theorem witness_completes :
    (tick (presented ⟨0x03, 0, 0⟩)).ports.rst = false ∧ (tick (presented ⟨0x03, 0, 0⟩)).phase = .run ∧
    (tick (tick (presented ⟨0x03, 0, 0⟩))).phase = .idle := by decide +kernel

/-- A response before and after it is valid, an error status and none, a representable pair, and the two failures: the cap
and a detected overflow (section 9, P3 rows 2 and 3). The unrepresentable pair is `witness_not_representable`, the undefined
command word `witness_invalid`. -/
theorem witness_host_reads :
    (State.reset.rsp.valid = false) ∧ ({ State.reset with rsp := forwardResponse 1 0 } : State).rsp.valid = true ∧
    statusErr 0x06 ≠ 0 ∧ statusErr 0x00 = 0 ∧ value 0x1 = gaussOf 1 0 ∧
    (respond (.inv (store (2 ^ 64)) 0)).map (commandResult 0x80) =
      some (.error ⟨some .representationOverflow, false, ⟨1, 0⟩, 0, 0⟩) ∧
    (respond (.inv (store smin) (store smax))).map (commandResult 0x80) =
      some (.error ⟨some .representationOverflow, true, ⟨smin, smax⟩, 0x1, 1⟩) :=
  ⟨rfl, rfl, by decide, by decide, by decide +kernel, by decide +kernel, by decide +kernel⟩

/-- Section 9, P3 row 1: the host reads InvalidVariant, not a number. -/
theorem test_invalid_result :
    (respondTo ⟨0x81, 1, 0⟩).map (commandResult 0x81) =
      some (.error ⟨some .invalidVariant, false, ⟨0, 0⟩, 0, 0⟩) := by decide +kernel

/-- The last step before INV completes, and the three statuses of INV with the counts of the table of
70_reset_and_hazards.md section 3. -/
theorem witness_step_counts :
    2 < stepCount ⟨0x80, -1, 1⟩ ∧ stepCount ⟨0x80, -1, 1⟩ = 3 ∧ stepCount ⟨0x80, store (2 ^ 64), 0⟩ = 129 ∧
    stepCount ⟨0x80, store smin, 0⟩ = 2 ∧ stepCount ⟨0x02, 0xFF, 0⟩ = 8 ∧ stepCount ⟨0x81, 0, 0⟩ = 1 ∧
    stepCount ⟨0x00, 0xFF, 0⟩ = 17 := by decide +kernel

theorem witness_request : cmdDir 0x02 = false ∧ cmdDir 0x7F = false ∧ State.reset.Ready := by decide

/-- A reset in the middle of a command. -/
theorem witness_reset_during :
    (presented ⟨0x00, 0xFF, 0⟩).ports.rst = false ∧ (⟨true, true, 0x00, 0xFF, 0⟩ : Ports).rst = true ∧
    (ticks 5 (presented ⟨0x00, 0xFF, 0⟩)).phase = .run := by decide +kernel

theorem witness_frames :
    (∃ t, exec (.fwdScalar 1) State.reset = .next t) ∧ (∃ t, exec (.fwdBatch 1) State.reset = .next t) ∧
    (∃ t, exec (.fwdRecur 1) State.reset = .next t) ∧ (∃ t, exec (.inv 1 0) State.reset = .next t) :=
  ⟨⟨_, rfl⟩, ⟨_, rfl⟩, ⟨_, rfl⟩, ⟨_, rfl⟩⟩

/-- The machine in the middle of `FWD.RECUR 0xFF`, as the trace of section 5.2 shows it at IDX = 3. -/
def midRecurrence : State :=
  { State.reset with
    phase := .run, op := .fr, idx := 3, dreg := 0x1F, pwrRe := 0, pwrIm := -2, acc := ⟨0, -1, false⟩ }

/-- It meets the invariant, and a step is taken from it. -/
theorem witness_invariant : midRecurrence.Inv ∧ ∃ t, step midRecurrence = .next t := by
  refine ⟨⟨⟨.inl rfl, ?_, ?_, ?_, ?_⟩, fun _ => ⟨rfl, ⟨⟨rfl, rfl, rfl⟩, .inr ⟨by decide, by decide, ?_, ?_⟩⟩⟩⟩, _, rfl⟩
  · exact fun h => absurd h (by decide)
  · exact fun h => absurd h (by decide)
  · exact fun h => absurd h (by decide)
  · exact fun h => absurd h (by decide)
  · decide
  · exact ⟨0xFF, by decide, by decide +kernel⟩

/-- The other clauses of the invariant are met on the way: a machine after acceptance of each kind of request. -/
theorem witness_invariant_clauses :
    ScalarRuns (tick (presented ⟨0x00, 0xFF, 0⟩)) ∧ BatchRuns (tick (presented ⟨0x01, 0xFF, 0⟩)) ∧
    RecurStarts (tick (presented ⟨0x02, 0xFF, 0⟩)) ∧ InvalidRuns (tick (presented ⟨0x03, 0xFF, 0⟩)) := by
  refine ⟨⟨⟨rfl, rfl, rfl⟩, by decide, by decide, by decide⟩, ⟨⟨rfl, rfl, rfl⟩, by decide, by decide⟩,
    ⟨rfl, rfl, rfl, rfl⟩, ⟨rfl, rfl⟩⟩

theorem witness_inverse_runs : InverseRuns (tick (presented ⟨0x80, 5, -3⟩)) := by
  refine ⟨rfl, by decide, fun k _ => ?_, fun h => absurd h (by decide), -3, by decide⟩
  exact BitVec.getLsbD_zero

end Witnesses

end Sys2Proof.Tests
end

section
namespace Sys2Proof.Machine

/-- The formula of R8 is the library's balanced remainder, so the library's laws of signed bit vectors speak of it. -/
theorem wrap128_eq_bmod (v : Int) : wrap128 v = v.bmod (2 ^ 128) := by
  rw [wrap128, Int.bmod_def]
  norm_num
  split <;> omega

theorem toInt_add_eq_wrap128 (x y : Word) : (x + y).toInt = wrap128 (x.toInt + y.toInt) := by
  rw [wrap128_eq_bmod, BitVec.toInt_add]

theorem toInt_sub_eq_wrap128 (x y : Word) : (x - y).toInt = wrap128 (x.toInt - y.toInt) := by
  rw [wrap128_eq_bmod, BitVec.toInt_sub]

theorem toInt_neg_eq_wrap128 (x : Word) : (-x).toInt = wrap128 (-x.toInt) := by
  rw [wrap128_eq_bmod, BitVec.toInt_neg]

/-- The constant itself may lie outside the signed range: wrapping it first does not change the wrapped product. -/
theorem toInt_ofInt_mul_eq_wrap128 (c : Int) (x : Word) :
    (BitVec.ofInt 128 c * x).toInt = wrap128 (c * x.toInt) := by
  rw [wrap128_eq_bmod, BitVec.toInt_mul, BitVec.toInt_ofInt, Int.bmod_mul_bmod]

/-- Settles O1: the balanced remainder modulo `2^128` gives each operation its wrapped exact result (R8). -/
theorem arithmeticWrapsModulo : Obligations.ArithmeticWrapsModulo := by
  refine ⟨fun v => ?_, fun x y c => ?_⟩
  · obtain ⟨hlo, hhi⟩ := wrap128_fits v
    exact ⟨rfl, hlo, hhi, store_toInt v⟩
  · exact ⟨toInt_add_eq_wrap128 x y, toInt_sub_eq_wrap128 x y, toInt_neg_eq_wrap128 x, toInt_ofInt_mul_eq_wrap128 c x⟩

end Sys2Proof.Machine
end

section
namespace Sys2Proof.Machine

section tick
variable {s : State}

/-- A ready hardware with a request presented accepts it (R34, R36). -/
theorem tick_of_ready_request (hs : s.Ready) (hv : s.ports.reqValid = true) : tick s = acceptPorts s := by
  obtain ⟨hidle, hrst⟩ := hs
  simp [tick, hidle, hrst, hv]

/-- A ready hardware with no request presented keeps every register (R34). -/
theorem tick_of_ready_no_request (hs : s.Ready) (hv : s.ports.reqValid = false) : tick s = s := by
  obtain ⟨hidle, hrst⟩ := hs
  simp [tick, hidle, hrst, hv]

end tick

/-- The five bits of the status word above `STATUS.ERR` and `STATUS.OVF` are zero (R25). -/
theorem statusWord_getLsbD_of_ge (ovf : Bool) (err : BitVec 2) {k : Nat} (hk : 3 ≤ k) :
    (statusWord ovf err).getLsbD k = false := by
  have herr : ¬ k < 2 := by omega
  have hovf : ¬ k - 2 < 1 := by omega
  calc (statusWord ovf err).getLsbD k
      = (0#5 ++ BitVec.ofBool ovf).getLsbD (k - 2) := by
        rw [statusWord, BitVec.getLsbD_append, if_neg herr]
    _ = false := by
        rw [BitVec.getLsbD_append, if_neg hovf, BitVec.getLsbD_zero]

/-- Settles O39: a ready machine with a request presented takes the acceptance transition, whose record is R36's list. -/
theorem acceptanceWrites : Obligations.AcceptanceWrites := by
  intro s hs hv
  rw [tick_of_ready_request hs hv]
  rfl

/-- Settles O40: the status byte is the status word of `ACC.OVF` and `ERRW` (R25, R37), and an idle machine that accepts
nothing stays as it is. -/
theorem completionWrites : Obligations.CompletionWrites := by
  refine ⟨fun s => ⟨statusWord s.acc.ovf s.errw, rfl, ?_, ?_, fun k hk => ?_⟩, fun s hidle hrst hv => ?_⟩
  · exact statusOvf_statusWord s.acc.ovf s.errw
  · exact statusErr_statusWord s.acc.ovf s.errw
  · exact statusWord_getLsbD_of_ge s.acc.ovf s.errw hk
  · exact tick_of_ready_no_request ⟨hidle, hrst⟩ hv

end Sys2Proof.Machine
end

section
namespace Sys2Proof

section decodeOp
variable {cmd : Byte}

/-- Field VAR holds bits 6:0, so as a number it is the command word modulo `2^7` (R81). -/
theorem cmdVar_eq_iff (v : BitVec 7) : cmdVar cmd = v ↔ cmd.toNat % 128 = v.toNat := by
  rw [← BitVec.toNat_inj, cmdVar, BitVec.extractLsb'_toNat, Nat.shiftRight_zero]

/-- The forward half of the decode function's table (R83). -/
theorem decodeOp_of_forward (hdir : cmdDir cmd = false) :
    decodeOp cmd =
      if cmd.toNat % 128 = 0 then .fs
      else if cmd.toNat % 128 = 1 then .fb
      else if cmd.toNat % 128 = 2 then .fr
      else .bad := by
  simp [decodeOp, hdir, cmdVar_eq_iff]

/-- The inverse half of the decode function's table (R83). -/
theorem decodeOp_of_inverse (hdir : cmdDir cmd = true) :
    decodeOp cmd = if cmd.toNat % 128 = 0 then .iv else .bad := by
  simp [decodeOp, hdir, cmdVar_eq_iff]

end decodeOp

namespace Machine

/-- Settles O3: each value of DIR selects its half of the table, and there VAR alone decides the outcome. -/
theorem decodeByDirectionAndVariant : Obligations.DecodeByDirectionAndVariant := by
  intro cmd
  cases hdir : cmd.getLsbD 7 with
  | false =>
    rw [decodeOp_of_forward hdir]
    split_ifs <;> simp <;> omega
  | true =>
    rw [decodeOp_of_inverse hdir]
    split_ifs with hvar <;> simp [hvar]

end Machine
end Sys2Proof
end

section
namespace Sys2Proof.Machine

/-- Settles O8: both loads are records of the model, and acceptance chooses between them by `OP` alone (R36). -/
theorem accumulatorClearAndLoad : Obligations.AccumulatorClearAndLoad := by
  refine ⟨⟨rfl, rfl, rfl⟩, fun re im => ⟨rfl, rfl, rfl⟩, fun op a b s => ⟨fun h => ?_, fun h => ?_⟩⟩
  · rw [accept_acc, if_pos h]
  · rw [accept_acc, if_neg h]

/-- Storing the exact sum of two registers is 128-bit addition (R8, R104). -/
theorem store_add_toInt (x y : Word) : store (x.toInt + y.toInt) = x + y := by
  rw [← BitVec.toInt_inj, store_toInt, toInt_add_eq_wrap128]

/-- The exact sum of two registers fits exactly when the addends' sign does not flip in the wrapped sum: wrapping moves an
unrepresentable sum by `2^128`, which changes its sign (R104). -/
theorem overflows_add_eq_gateOverflow (x y : Word) : overflows (x.toInt + y.toInt) = gateOverflow x y := by
  have hx := (fits_iff _).1 (toInt_fits x)
  have hy := (fits_iff _).1 (toInt_fits y)
  rw [Bool.eq_iff_iff, overflows_iff, fits_iff, gateOverflow, BitVec.msb_eq_toInt, BitVec.msb_eq_toInt,
    BitVec.msb_eq_toInt, toInt_add_eq_wrap128, wrap128]
  simp only [Bool.and_eq_true, beq_iff_eq, bne_iff_ne, ne_eq, decide_eq_decide]
  omega

/-- The flag after `acc_add` (R104). -/
theorem accAdd_ovf_iff (a : Acc) (dre dim : Word) :
    (accAdd a dre dim).ovf = true ↔
      a.ovf = true ∨ ¬ Fits (a.re.toInt + dre.toInt) ∨ ¬ Fits (a.im.toInt + dim.toInt) := by
  simp only [accAdd, Bool.or_eq_true, overflows_iff, or_assoc]

/-- Adding `(0, 0)` changes nothing: what a register holds fits (R104). -/
theorem accAdd_zero (a : Acc) : accAdd a 0 0 = a := by
  simp [accAdd, store_of_toInt, overflows_of_fits, toInt_fits]

/-- Settles O9: stored sums are 128-bit additions, and the range test of the flag is the sign rule. -/
theorem accumulatorAddWraps : Obligations.AccumulatorAddWraps := by
  refine ⟨fun a dre dim => ?_, by decide, by decide, by decide, by decide⟩
  have hre := (fits_iff _).1 (toInt_fits a.re)
  have hdre := (fits_iff _).1 (toInt_fits dre)
  have hgate : (accAdd a dre dim).ovf = (a.ovf || gateOverflow a.re dre || gateOverflow a.im dim) := by
    rw [← overflows_add_eq_gateOverflow, ← overflows_add_eq_gateOverflow]
    rfl
  exact ⟨by omega, by omega, store_toInt _, store_toInt _, store_add_toInt _ _, store_add_toInt _ _,
    accAdd_ovf_iff a dre dim, hgate, accAdd_zero a⟩

/-- An exact integer is its own wrapped value exactly when it fits (R101). -/
theorem ne_wrap128_iff (v : Int) : v ≠ wrap128 v ↔ ¬ Fits v := by
  rw [← overflows_iff, overflows, bne_iff_ne]

/-- The half of an integer that fits has magnitude at most `2^126` (R105). -/
theorem half_bounds {v : Int} (h : Fits v) : -2 ^ 126 ≤ v / 2 ∧ v / 2 ≤ 2 ^ 126 - 1 := by
  rw [fits_iff] at h
  omega

/-- Settles O10: the two outcomes are those of `accDivb_cases`, and the ranges follow from those of the registers. -/
theorem accumulatorDividesByBase : Obligations.AccumulatorDividesByBase := by
  refine ⟨?_, by decide, by decide, by decide⟩
  rintro a c _ n1 n2 rfl hn1 hn2
  have hre := (fits_iff _).1 (toInt_fits a.re)
  have him := (fits_iff _).1 (toInt_fits a.im)
  have hrange : -2 ^ 128 + 1 ≤ n1 ∧ n1 ≤ 2 ^ 128 ∧ -2 ^ 128 + 2 ≤ n2 ∧ n2 ≤ 2 ^ 128 + 1 := by
    cases c <;> simp at hn1 hn2 <;> omega
  have hcases := accDivb_cases a c
  rw [← hn1, ← hn2] at hcases
  rw [ne_wrap128_iff, ne_wrap128_iff, ← not_and_or, not_not]
  refine ⟨hrange, fun hout => ?_, fun hfit => ?_⟩
  · rcases hcases with ⟨h1, h2, -⟩ | ⟨-, hkept⟩
    · exact absurd ⟨h1, h2⟩ hout
    · exact hkept
  · rcases hcases with ⟨h1, h2, hpair, hflag⟩ | ⟨hout, -⟩
    · exact ⟨congrArg Gauss.re hpair, congrArg Gauss.im hpair, hflag,
        (half_bounds h1).1, (half_bounds h1).2, (half_bounds h2).1, (half_bounds h2).2⟩
    · exact absurd hfit hout

/-- Settles O11: both tests read the Gaussian integer the accumulator holds. -/
theorem parityAndZeroTests : Obligations.ParityAndZeroTests := by
  refine fun a => ⟨?_, rfl, ?_⟩
  · rw [accIsZero_iff, Gauss.ext_parts_iff]
    rfl
  · rw [accParity_eq, decide_eq_true_eq]
    omega

/-- Halving the stored value of an integer that fits is the arithmetic right shift by one bit (R110). -/
theorem eq_sshiftRight_of_toInt {x : Word} {n : Int} (h : Fits n) (hx : x.toInt = n / 2) :
    x = (store n).sshiftRight 1 := by
  rw [← BitVec.toInt_inj, BitVec.toInt_sshiftRight, store_toInt_of_fits h, hx, Int.shiftRight_eq_div_pow]
  rfl

/-- The digit as an integer makes the sum and the difference of the components even (R110). -/
theorem parity_numerators_even (a : Acc) :
    (a.im.toInt - a.re.toInt + (if accParity a then 1 else 0)) % 2 = 0 ∧
    (-a.re.toInt - a.im.toInt + (if accParity a then 1 else 0)) % 2 = 0 := by
  rw [accParity_eq]
  simp only [decide_eq_true_eq]
  split <;> omega

/-- Settles O12: with even numerators the halves lose nothing, so multiplying them by b and adding the digit gives the old
pair back. -/
theorem divisionIsExact : Obligations.DivisionIsExact := by
  rintro a cv n1 n2 hcv hn1 hn2
  have heven := parity_numerators_even a
  have hcases := accDivb_cases a (accParity a)
  rw [← hcv, ← hn1, ← hn2] at heven hcases
  obtain ⟨heven1, heven2⟩ := heven
  refine ⟨heven1, heven2, fun hovf => ?_, fun q i => rfl⟩
  rcases hcases with ⟨h1, h2, hpair, -⟩ | ⟨-, hkept⟩
  · refine ⟨eq_sshiftRight_of_toInt h1 (congrArg Gauss.re hpair),
      eq_sshiftRight_of_toInt h2 (congrArg Gauss.im hpair), ?_⟩
    rw [hpair]
    ext <;> simp <;> omega
  · rw [hkept] at hovf
    cases hovf

end Sys2Proof.Machine
end

section
namespace Sys2Proof.Machine
open Finset

/-- `∑_{g<n} 16^g · c = c·(16^n - 1)/15`, for a family that repeats its first eight values at scale `16^g` (R111). -/
theorem fifteen_mul_sum_groups (f : Nat → Int) (hf : ∀ g j, f (8 * g + j) = 16 ^ g * f j) (n : Nat) :
    15 * ∑ k ∈ range (8 * n), f k = (16 ^ n - 1) * ∑ j ∈ range 8, f j := by
  induction n with
  | zero => simp
  | succ n ih =>
    have hgroup : ∑ j ∈ range 8, f (8 * n + j) = 16 ^ n * ∑ j ∈ range 8, f j := by
      rw [mul_sum]
      exact sum_congr rfl fun j _ => hf n j
    rw [Nat.mul_succ, sum_range_add, mul_add, ih, hgroup]
    ring

/-- A subset of the 128 members of such a family sums to at most the positive members of its first group, times `K`
(R111). -/
theorem sum_le_of_groups (f : Nat → Int) (hf : ∀ g j, f (8 * g + j) = 16 ^ g * f j)
    {S : Finset Nat} (hS : ∀ k ∈ S, k < 128) : ∑ k ∈ S, f k ≤ (∑ j ∈ range 8, max 0 (f j)) * boundK := by
  have hpos : ∀ g j, max 0 (f (8 * g + j)) = 16 ^ g * max 0 (f j) := fun g j => by
    rw [hf, mul_max_of_nonneg _ _ (by positivity), mul_zero]
  have hall := fifteen_mul_sum_groups (fun k => max 0 (f k)) hpos 16
  rw [show (16 ^ 16 - 1 : Int) = 15 * boundK by decide] at hall
  calc ∑ k ∈ S, f k ≤ ∑ k ∈ S, max 0 (f k) := sum_le_sum fun k _ => le_max_right 0 (f k)
    _ ≤ ∑ k ∈ range (8 * 16), max 0 (f k) :=
      sum_le_sum_of_subset_of_nonneg (fun k hk => mem_range.2 (hS k hk)) fun k _ _ => le_max_left 0 (f k)
    _ = (∑ j ∈ range 8, max 0 (f j)) * boundK := by linarith

/-- The exact bounds of R111 on the real and imaginary parts of a sum of distinct powers below `b^128`. -/
theorem sum_powB_bounds {S : Finset Nat} (hS : ∀ k ∈ S, k < 128) :
    (-13 * boundK ≤ ∑ k ∈ S, (powB k).re ∧ ∑ k ∈ S, (powB k).re ≤ 7 * boundK) ∧
    (-14 * boundK ≤ ∑ k ∈ S, (powB k).im ∧ ∑ k ∈ S, (powB k).im ≤ 11 * boundK) := by
  have hre : ∀ g j, (powB (8 * g + j)).re = 16 ^ g * (powB j).re := fun g j => by rw [powB_group]
  have him : ∀ g j, (powB (8 * g + j)).im = 16 ^ g * (powB j).im := fun g j => by rw [powB_group]
  have hre_le := sum_le_of_groups (fun k => (powB k).re) hre hS
  have him_le := sum_le_of_groups (fun k => (powB k).im) him hS
  have hre_ge := sum_le_of_groups (fun k => -(powB k).re) (fun g j => by rw [hre, mul_neg]) hS
  have him_ge := sum_le_of_groups (fun k => -(powB k).im) (fun g j => by rw [him, mul_neg]) hS
  rw [show ∑ j ∈ range 8, max 0 (powB j).re = 7 by decide] at hre_le
  rw [show ∑ j ∈ range 8, max 0 (powB j).im = 11 by decide] at him_le
  rw [show ∑ j ∈ range 8, max 0 (-(powB j).re) = 13 by decide, sum_neg_distrib] at hre_ge
  rw [show ∑ j ∈ range 8, max 0 (-(powB j).im) = 14 by decide, sum_neg_distrib] at him_ge
  refine ⟨⟨?_, hre_le⟩, ⟨?_, him_le⟩⟩ <;> linarith

/-- So every such sum lies strictly inside `(-2^64, 2^64)` (R111). -/
theorem sum_powB_abs_lt {S : Finset Nat} (hS : ∀ k ∈ S, k < 128) :
    |∑ k ∈ S, (powB k).re| < 2 ^ 64 ∧ |∑ k ∈ S, (powB k).im| < 2 ^ 64 := by
  obtain ⟨⟨hre1, hre2⟩, ⟨him1, him2⟩⟩ := sum_powB_bounds hS
  rw [abs_lt, abs_lt]
  simp only [boundK] at *
  omega

/-- The positions of the digits 1 among the lowest `n` digits. -/
def onePositions (d : Word) (n : Nat) : Finset Nat := (range n).filter fun k => d.getLsbD k = true

theorem lt_of_mem_onePositions {d : Word} {n k : Nat} (hk : k ∈ onePositions d n) : k < n :=
  mem_range.1 (mem_filter.1 hk).1

/-- A digit sum is the sum of the powers at its digits 1 (R10). -/
theorem digitSum_eq_sum (d : Word) (n : Nat) :
    digitSum d n = ⟨∑ k ∈ onePositions d n, (powB k).re, ∑ k ∈ onePositions d n, (powB k).im⟩ := by
  simp only [onePositions, sum_filter]
  induction n with
  | zero => rfl
  | succ n ih =>
    rw [digitSum_succ, ih, sum_range_succ, sum_range_succ]
    split <;> ext <;> simp

/-- Every digit sum fits in the accumulator, with most of its width to spare (R111). -/
theorem digitSum_abs_lt (d : Word) {n : Nat} (hn : n ≤ 128) :
    |(digitSum d n).re| < 2 ^ 64 ∧ |(digitSum d n).im| < 2 ^ 64 := by
  have hsmall := sum_powB_abs_lt (S := onePositions d n) fun k hk => (lt_of_mem_onePositions hk).trans_le hn
  rw [digitSum_eq_sum]
  exact hsmall

/-- Every power a digit string can use is such a sum of one member (R111). -/
theorem powB_abs_lt {k : Nat} (hk : k < 128) : |(powB k).re| < 2 ^ 64 ∧ |(powB k).im| < 2 ^ 64 := by
  simpa using sum_powB_abs_lt (S := {k}) (by simpa using hk)

theorem fits_of_abs_lt {v : Int} (h : |v| < 2 ^ 64) : Fits v := by
  rw [abs_lt] at h
  rw [fits_iff]
  omega

/-- The accumulator holds the sum of the lowest `n` digits and no overflow was detected: the loop invariant the forward
commands share (R132, R143, R163). -/
structure HoldsDigits (d : Word) (n : Nat) (a : Acc) : Prop where
  gauss_eq : a.gauss = digitSum d n
  no_overflow : a.ovf = false

theorem accClear_holdsDigits (d : Word) : HoldsDigits d 0 accClear := ⟨rfl, rfl⟩

/-- Adding what takes one digit sum to a later one keeps the invariant, because every digit sum fits (R104, R111). -/
theorem HoldsDigits.accAdd {d : Word} {m n : Nat} {a : Acc} {x y : Word} (ha : HoldsDigits d m a) (hn : n ≤ 128)
    (hsum : digitSum d n = (digitSum d m).add (gaussOf x y)) : HoldsDigits d n (accAdd a x y) := by
  obtain ⟨hre, him⟩ := digitSum_abs_lt d hn
  rw [hsum, ← ha.gauss_eq] at hre him
  obtain ⟨hgauss, hovf⟩ := accAdd_of_fits (fits_of_abs_lt hre) (fits_of_abs_lt him)
  exact ⟨by rw [hgauss, hsum, ha.gauss_eq], hovf.trans ha.no_overflow⟩

/-- Adding `b^n` if digit `n` is 1 takes the lowest `n` digits to the lowest `n + 1`. -/
theorem HoldsDigits.addDigit {d : Word} {n : Nat} {a : Acc} {x y : Word} (ha : HoldsDigits d n a) (hn : n < 128)
    (hpow : gaussOf x y = powB n) :
    HoldsDigits d (n + 1) (if d.getLsbD n then Machine.accAdd a x y else a) := by
  split
  case isTrue hbit => exact ha.accAdd hn (by rw [digitSum_succ, if_pos hbit, hpow])
  case isFalse hbit => exact ⟨by rw [digitSum_succ, if_neg hbit, ha.gauss_eq], ha.no_overflow⟩

/-- A fold over `0, …, n-1` whose every step takes `P i` to `P (i+1)` ends in `P n`. -/
theorem foldl_range_induction {α : Type} {P : Nat → α → Prop} {f : α → Nat → α} {x : α} (n : Nat)
    (hstart : P 0 x) (hstep : ∀ i y, i < n → P i y → P (i + 1) (f y i)) : P n ((List.range n).foldl f x) := by
  induction n with
  | zero => exact hstart
  | succ n ih =>
    rw [List.range_succ, List.foldl_append]
    exact hstep n _ n.lt_succ_self (ih fun i y hi => hstep i y (hi.trans n.lt_succ_self))

/-- A sign as an integer (R32). -/
def Sign.toInt : Sign → Int
  | .minus => -1
  | .zero => 0
  | .plus => 1

/-- Applying a sign to a power that is small as a signed value multiplies it (R112). -/
theorem Sign.apply_toInt (sign : Sign) {power : Word} (h : power.toNat < 2 ^ 127) :
    (sign.apply power).toInt = sign.toInt * power.toNat := by
  have hpower : power.toInt = power.toNat := BitVec.toInt_eq_toNat_of_lt (by omega)
  cases sign with
  | minus =>
    have hfits : Fits (-power.toInt) := by rw [fits_iff]; omega
    rw [Sign.apply, toInt_neg_eq_wrap128, wrap128_of_fits hfits, hpower, Sign.toInt, neg_one_mul]
  | zero => simp [Sign.apply, Sign.toInt]
  | plus => rw [Sign.apply, hpower, Sign.toInt, one_mul]

/-- The table's entries spell the first eight powers (R120). -/
theorem coefficientTable_powB (j : Fin 8) :
    powB j = ⟨(coefficientTable j).sr.toInt * (coefficientTable j).p.toNat,
      (coefficientTable j).si.toInt * (coefficientTable j).p.toNat⟩ := by
  revert j
  decide

/-- The lookup at scale `16^g` gives `b^(8g+j)` (R122). -/
theorem ctContrib_gauss {g : Nat} (hg : g < 16) (j : Fin 8) {s : Word} (hs : s.toNat = 16 ^ g) :
    gaussOf (ctContrib j s).1 (ctContrib j s).2 = powB (8 * g + j) := by
  have hp := (coefficientTable j).p.isLt
  have hscale : 16 ^ g ≤ 16 ^ 15 := Nat.pow_le_pow_right (by norm_num) (by omega)
  have hbound : (coefficientTable j).p.toNat * 16 ^ g < 2 ^ 127 :=
    calc (coefficientTable j).p.toNat * 16 ^ g ≤ 2 ^ 4 * 16 ^ 15 := Nat.mul_le_mul hp.le hscale
      _ < 2 ^ 127 := by norm_num
  have hpower : ((coefficientTable j).p.zeroExtend 128 * s).toNat = (coefficientTable j).p.toNat * 16 ^ g := by
    rw [BitVec.toNat_mul, hs, BitVec.toNat_setWidth, Nat.mod_eq_of_lt (by omega : (coefficientTable j).p.toNat < 2 ^ 128)]
    exact Nat.mod_eq_of_lt (by omega)
  rw [powB_group, coefficientTable_powB]
  ext <;> simp only [gaussOf_re, gaussOf_im, ctContrib] <;>
    rw [Sign.apply_toInt _ (by omega), hpower] <;> push_cast <;> ring

/-- A group pass of FWD.SCALAR adds the group's eight digits (R132). -/
theorem HoldsDigits.fsGroupPass {d : Word} {g : Nat} {a : Acc} {s : Word} (ha : HoldsDigits d (8 * g) a) (hg : g < 16)
    (hs : s.toNat = 16 ^ g) : HoldsDigits d (8 * (g + 1)) (fsGroupPass d g s a) := by
  have hbit : ∀ (j : Fin 8) (a : Acc), HoldsDigits d (8 * g + j) a →
      HoldsDigits d (8 * g + j + 1)
        (if groupBit d g j then Machine.accAdd a (ctContrib j s).1 (ctContrib j s).2 else a) :=
    fun j a ha => ha.addDigit (by omega) (ctContrib_gauss hg j hs)
  exact hbit 7 _ <| hbit 6 _ <| hbit 5 _ <| hbit 4 _ <| hbit 3 _ <| hbit 2 _ <| hbit 1 _ <| hbit 0 _ ha

/-- The scale before the pass of group `g` is `16^g` (R123). -/
theorem nextScale_pow (g : Nat) : nextScale (BitVec.ofNat 128 (16 ^ g)) = BitVec.ofNat 128 (16 ^ (g + 1)) := by
  rw [pow_succ', BitVec.ofNat_mul]
  rfl

/-- FWD.SCALAR ends with all 128 digits summed, no overflow, and the scale at `16^16` (R134). -/
theorem fwdScalarLoop_holdsDigits (d : Word) :
    HoldsDigits d 128 (fwdScalarLoop d).1 ∧ (fwdScalarLoop d).2 = BitVec.ofNat 128 (16 ^ 16) := by
  refine foldl_range_induction
    (P := fun g (r : Acc × Word) => HoldsDigits d (8 * g) r.1 ∧ r.2 = BitVec.ofNat 128 (16 ^ g)) 16
    ⟨accClear_holdsDigits d, rfl⟩ fun g r hg hr => ?_
  obtain ⟨hacc, hscale⟩ := hr
  have hlt : 16 ^ g < 2 ^ 128 :=
    calc 16 ^ g < 16 ^ 16 := Nat.pow_lt_pow_right (by norm_num) hg
      _ < 2 ^ 128 := by norm_num
  refine ⟨hacc.fsGroupPass hg ?_, ?_⟩
  · rw [hscale, BitVec.toNat_ofNat, Nat.mod_eq_of_lt hlt]
  · rw [hscale, nextScale_pow]

end Sys2Proof.Machine
end

section
namespace Sys2Proof.Machine
open Finset

/-- The eight digits of group `g` add `16^g` times the sum of the first eight powers at its digits 1 (R143). -/
theorem digitSum_group (d : Word) (g : Nat) :
    digitSum d (8 * (g + 1)) =
      (digitSum d (8 * g)).add
        ⟨16 ^ g * ∑ j : Fin 8, (if groupBit d g j then (powB j).re else 0),
          16 ^ g * ∑ j : Fin 8, (if groupBit d g j then (powB j).im else 0)⟩ := by
  rw [digitSum_eq_sum, digitSum_eq_sum, Nat.mul_succ]
  simp only [onePositions, sum_filter, sum_range_add, sum_range (n := 8), powB_group, mul_sum, mul_ite, mul_zero]
  rfl

/-- A lane is its digit (R142). -/
theorem lane_eq (d : Word) (g : Nat) (j : Fin 8) : lane d g j = if groupBit d g j then 1 else 0 := by
  rw [lane]
  cases groupBit d g j <;> decide

/-- A product of the packed operation is the row's element or 0 (R144). -/
theorem laneProduct_toInt {row lanes : Fin 8 → Byte} {j : Fin 8} (hlane : lanes j = 0 ∨ lanes j = 1) :
    (laneProduct row lanes j).toInt = if lanes j = 1 then (row j).toInt else 0 := by
  rcases hlane with h | h
  · simp [laneProduct, h]
  · rw [if_pos h, laneProduct, h, show (1 : Byte).zeroExtend 16 = 1#16 from rfl, BitVec.mul_one,
      BitVec.toInt_signExtend_of_le (by norm_num)]

/-- An element of a row, or 0, is a signed byte (R144). -/
theorem laneProduct_bounds {row lanes : Fin 8 → Byte} {j : Fin 8} (hlane : lanes j = 0 ∨ lanes j = 1) :
    -128 ≤ (laneProduct row lanes j).toInt ∧ (laneProduct row lanes j).toInt ≤ 127 := by
  have hlt := BitVec.toInt_lt (x := row j)
  have hle := BitVec.le_toInt (x := row j)
  rw [laneProduct_toInt hlane]
  split <;> omega

/-- Eight such products stay far inside 32 bits (R144). -/
theorem abs_sum_laneProduct_le {row lanes : Fin 8 → Byte} (hlanes : ∀ j, lanes j = 0 ∨ lanes j = 1) :
    |∑ j : Fin 8, (laneProduct row lanes j).toInt| ≤ 2 ^ 10 :=
  calc |∑ j : Fin 8, (laneProduct row lanes j).toInt| ≤ ∑ j : Fin 8, |(laneProduct row lanes j).toInt| :=
        abs_sum_le_sum_abs _ _
    _ ≤ ∑ _j : Fin 8, 2 ^ 7 := sum_le_sum fun j _ => by
        have hbounds := laneProduct_bounds (row := row) (hlanes j)
        rw [abs_le]
        omega
    _ = 2 ^ 10 := by decide

/-- So the tree of 32-bit adds does not wrap, and its result is the exact sum of the products (R144). -/
theorem dot8_eq_sum_laneProduct {row lanes : Fin 8 → Byte} (hlanes : ∀ j, lanes j = 0 ∨ lanes j = 1) :
    (dot8 row lanes).toInt = ∑ j : Fin 8, (laneProduct row lanes j).toInt := by
  have hsmall := abs_le.1 (abs_sum_laneProduct_le (row := row) hlanes)
  have hwrap : (dot8 row lanes).toInt = (∑ j : Fin 8, (laneProduct row lanes j).toInt).bmod (2 ^ 32) := by
    simp only [dot8, BitVec.toInt_add, BitVec.toInt_signExtend_of_le (show 16 ≤ 32 by norm_num),
      Int.add_bmod_bmod, Fin.sum_univ_eight, add_assoc]
  rw [hwrap, Int.bmod_eq_of_le] <;> omega

/-- The packed operation gives the sum of the row's elements at the set lanes (R144). -/
theorem dot8_toInt {row lanes : Fin 8 → Byte} (hlanes : ∀ j, lanes j = 0 ∨ lanes j = 1) :
    (dot8 row lanes).toInt = ∑ j : Fin 8, (if lanes j = 1 then (row j).toInt else 0) := by
  rw [dot8_eq_sum_laneProduct hlanes]
  exact sum_congr rfl fun j _ => laneProduct_toInt (hlanes j)

/-- A scalar whose scaled value fits is multiplied by `16^g` (R145). -/
theorem shiftScalar_toInt {v : BitVec 32} {g : Nat} (h : Fits (v.toInt * 16 ^ g)) :
    (shiftScalar v g).toInt = v.toInt * 16 ^ g := by
  have hpow : BitVec.ofInt 128 (16 ^ g) = BitVec.twoPow 128 (4 * g) := by
    rw [show (16 ^ g : Int) = (2 ^ (4 * g) : Nat) by push_cast; rw [pow_mul]; rfl, BitVec.ofInt_natCast,
      ← BitVec.toNat_inj, BitVec.toNat_ofNat, BitVec.toNat_twoPow]
  rw [shiftScalar, BitVec.shiftLeft_eq_mul_twoPow, BitVec.mul_comm, ← hpow, toInt_ofInt_mul_eq_wrap128,
    BitVec.toInt_signExtend_of_le (by norm_num), mul_comm, wrap128_of_fits h]

/-- The rows are the first eight powers (R141). -/
theorem row_toInt (j : Fin 8) : (realRow j).toInt = (powB j).re ∧ (imagRow j).toInt = (powB j).im := by
  revert j
  decide

/-- The scalar of a row for group `g`, after the shift (R143). -/
theorem shiftScalar_dot8 {g : Nat} (hg : g < 16) (d : Word) (row : Fin 8 → Byte) :
    (shiftScalar (dot8 row (lane d g)) g).toInt =
      16 ^ g * ∑ j : Fin 8, (if groupBit d g j then (row j).toInt else 0) := by
  have hlanes : ∀ j, lane d g j = 0 ∨ lane d g j = 1 := fun j => by
    rw [lane_eq]
    exact (ite_eq_or_eq _ _ _).symm
  have hsum := dot8_toInt (row := row) hlanes
  have hbound := abs_sum_laneProduct_le (row := row) hlanes
  rw [← dot8_eq_sum_laneProduct hlanes] at hbound
  have hscaled : |(dot8 row (lane d g)).toInt * 16 ^ g| ≤ 2 ^ 10 * 16 ^ 15 := by
    rw [abs_mul, abs_of_nonneg (by positivity : (0 : Int) ≤ 16 ^ g)]
    gcongr
    · norm_num
    · omega
  have hfits : Fits ((dot8 row (lane d g)).toInt * 16 ^ g) := by
    rw [abs_le] at hscaled
    rw [fits_iff]
    omega
  have hones : ∀ j, lane d g j = 1 ↔ groupBit d g j = true := fun j => by
    rw [lane_eq]
    cases groupBit d g j <;> decide
  rw [shiftScalar_toInt hfits, hsum, mul_comm]
  simp only [hones]

/-- A group pass of FWD.BATCH adds the group's eight digits at once (R143). -/
theorem HoldsDigits.fbGroupPass {d : Word} {g : Nat} {a : Acc} (ha : HoldsDigits d (8 * g) a) (hg : g < 16) :
    HoldsDigits d (8 * (g + 1)) (fbGroupPass d g a) := by
  refine ha.accAdd (by omega) ?_
  rw [digitSum_group, gaussOf, shiftScalar_dot8 hg, shiftScalar_dot8 hg]
  simp only [row_toInt]

/-- FWD.BATCH ends with all 128 digits summed and no overflow (R146). -/
theorem fwdBatchLoop_holdsDigits (d : Word) : HoldsDigits d 128 (fwdBatchLoop d) :=
  foldl_range_induction (P := fun g a => HoldsDigits d (8 * g) a) 16 (accClear_holdsDigits d)
    fun _ _ hg ha => ha.fbGroupPass hg

end Sys2Proof.Machine
end

section
namespace Sys2Proof.Machine

/-- The loop invariant of FWD.RECUR before bit position `k`: the power is `b^(k-1)`, the digits from `k` on remain, and the
lowest `k` are summed (R163). -/
structure RecurrenceInv (d : Word) (r : Recurrence) : Prop where
  two_le : 2 ≤ r.k
  power_eq : gaussOf r.pr r.pi = powB (r.k - 1)
  rem_eq : r.rem = d >>> r.k
  holds : HoldsDigits d r.k r.acc

/-- The base cases add the two lowest digits (R162). -/
theorem frStart_inv (d : Word) : RecurrenceInv d (frStart d) := by
  refine ⟨le_rfl, rfl, rfl, ?_⟩
  refine (accClear_holdsDigits d).accAdd (n := 2) (by norm_num) ?_
  rw [digitSum_succ, digitSum_succ, digitSum_zero]
  cases d.getLsbD 0 <;> cases d.getLsbD 1 <;> decide

/-- An iteration multiplies the power by b exactly and adds digit `k` (R163). -/
theorem RecurrenceInv.frIteration {d : Word} {r : Recurrence} (hr : RecurrenceInv d r) (hk : r.k < 128) :
    RecurrenceInv d (frIteration r) := by
  obtain ⟨htwo, hpower, hrem, hholds⟩ := hr
  obtain ⟨hre, him⟩ := powB_abs_lt hk
  have hnext : powB r.k = (gaussOf r.pr r.pi).mulB := by
    rw [hpower, ← powB_succ, Nat.sub_add_cancel (by omega)]
  have hnew : gaussOf (Machine.frIteration r).pr (Machine.frIteration r).pi = powB r.k := by
    rw [hnext] at hre him ⊢
    exact Gauss.ext_parts (store_toInt_of_fits (fits_of_abs_lt hre)) (store_toInt_of_fits (fits_of_abs_lt him))
  have hdigit : r.rem.getLsbD 0 = d.getLsbD r.k := by simp [hrem]
  refine ⟨htwo.trans (Nat.le_succ r.k), hnew, ?_, ?_⟩
  · show r.rem >>> 1 = d >>> (r.k + 1)
    rw [hrem, BitVec.shiftRight_add]
  · have hadd := hholds.addDigit hk hnew
    rw [← hdigit] at hadd
    exact hadd

/-- The loop keeps the invariant for as many iterations as there are bit positions left (R160, R164). -/
theorem frLoop_inv {d : Word} (n : Nat) {r : Recurrence} (hr : RecurrenceInv d r) (hn : r.k + n ≤ 128) :
    RecurrenceInv d (frLoop n r) := by
  induction n generalizing r with
  | zero => exact hr
  | succ n ih =>
    rw [frLoop]
    split
    · exact hr
    · exact ih (hr.frIteration (by omega)) (by show r.k + 1 + n ≤ 128; omega)

theorem fwdRecurLoop_inv (d : Word) : RecurrenceInv d (fwdRecurLoop d) :=
  frLoop_inv 126 (frStart_inv d) le_rfl

/-- Settles O14: the sums of distinct powers stay inside R111's bounds, and each loop's accumulator runs through digit sums,
which are such sums. -/
theorem forwardSumsBounded : Obligations.ForwardSumsBounded := by
  refine ⟨fun S hS => ?_, by decide, fun d => ?_⟩
  · obtain ⟨⟨hre_ge, hre_le⟩, ⟨him_ge, him_le⟩⟩ := sum_powB_bounds hS
    exact ⟨hre_ge, hre_le, him_ge, him_le, sum_powB_abs_lt hS⟩
  · exact ⟨(fwdScalarLoop_holdsDigits d).1.no_overflow, (fwdBatchLoop_holdsDigits d).no_overflow,
      (fwdRecurLoop_inv d).holds.no_overflow⟩

end Sys2Proof.Machine
end

section
namespace Sys2Proof.Machine

/-- No component of the first eight powers exceeds the largest power multiplier, 8 (R120). -/
theorem powB_position_abs_le (j : Fin 8) : |(powB j).re| ≤ 8 ∧ |(powB j).im| ≤ 8 := by
  revert j
  decide

/-- An integer of magnitude at most 8, scaled by one of the sixteen group scales, stays within `2^63` (R122). -/
theorem abs_scale_mul_le {g : Nat} (hg : g < 16) {v : Int} (hv : |v| ≤ 8) : |16 ^ g * v| ≤ 2 ^ 63 :=
  calc |16 ^ g * v| = 16 ^ g * |v| := by rw [abs_mul, abs_of_nonneg (by positivity : (0 : Int) ≤ 16 ^ g)]
    _ ≤ 16 ^ 15 * 8 := by
      gcongr
      · norm_num
      · omega
    _ = 2 ^ 63 := by norm_num

/-- Every power of a group that the table serves has components of magnitude at most `2^63` (R122). -/
theorem powB_group_abs_le {g : Nat} (hg : g < 16) (j : Fin 8) :
    |(powB (8 * g + j)).re| ≤ 2 ^ 63 ∧ |(powB (8 * g + j)).im| ≤ 2 ^ 63 := by
  obtain ⟨hre, him⟩ := powB_position_abs_le j
  rw [powB_group]
  exact ⟨abs_scale_mul_le hg hre, abs_scale_mul_le hg him⟩

/-- Settles O15: the lookup at scale `16^g` is the power `b^(8g+j)`, so its components have that power's bound; the general
form is the lookup's definition. -/
theorem lookupGivesPowers : Obligations.LookupGivesPowers := by
  refine ⟨fun g j s hg hs => ?_, fun j s => rfl, by decide, by decide⟩
  have hpower := ctContrib_gauss hg j hs
  have hbound := powB_group_abs_le hg j
  rw [← hpower] at hbound
  exact ⟨hpower, hbound⟩

end Sys2Proof.Machine
end

section
namespace Sys2Proof.Machine

/-- The value of a digit string fits in the accumulator, so storing it loses nothing (R111). -/
theorem store_value_toInt (d : Word) :
    (store (value d).re).toInt = (value d).re ∧ (store (value d).im).toInt = (value d).im := by
  obtain ⟨hre, him⟩ := digitSum_abs_lt d le_rfl
  exact ⟨store_toInt_of_fits (fits_of_abs_lt hre), store_toInt_of_fits (fits_of_abs_lt him)⟩

/-- With all 128 digits summed, the accumulator is the stored value of the digit string with `OVF` clear (R131). -/
theorem HoldsDigits.eq_store_value {d : Word} {a : Acc} (ha : HoldsDigits d 128 a) :
    a = ⟨store (value d).re, store (value d).im, false⟩ := by
  obtain ⟨hre, him⟩ := store_value_toInt d
  exact Acc.eq_of_gauss (ha.gauss_eq.trans (Gauss.ext_parts hre.symm him.symm)) ha.no_overflow

/-- Completion of a command that has built no digit string and met no error and no overflow: the answer is the accumulator,
with every other response register 0 (R37). -/
theorem complete_of_no_error {s : State} (hq : s.qreg = 0) (herr : s.errw = 0) (hovf : s.acc.ovf = false) :
    complete s = { s with rsp := ⟨true, 0x00, s.acc.re, s.acc.im, 0, 0⟩, phase := .idle } := by
  simp [complete, hq, herr, hovf]

/-- Settles O20: the loop leaves the digit string's value in the accumulator and `16^16 = 2^64` in `SCALE`, and a forward
command completes with `QREG` and `ERRW` as acceptance cleared them. -/
theorem forwardScalarResult : Obligations.ForwardScalarResult := by
  intro d s
  obtain ⟨hholds, hscale⟩ := fwdScalarLoop_holdsDigits d
  refine ⟨?_, store_value_toInt d⟩
  simp only [exec, execFwdScalar]
  rw [complete_of_no_error rfl rfl hholds.no_overflow, hholds.eq_store_value, hscale]
  rfl

end Sys2Proof.Machine
end

section
namespace Sys2Proof.Machine
open Finset

/-- A product lies between 0 and the row's element (R144). -/
theorem laneProduct_between {row lanes : Fin 8 → Byte} {j : Fin 8} (hlane : lanes j = 0 ∨ lanes j = 1) :
    min 0 (row j).toInt ≤ (laneProduct row lanes j).toInt ∧
      (laneProduct row lanes j).toInt ≤ max 0 (row j).toInt := by
  rw [laneProduct_toInt hlane]
  split
  · exact ⟨min_le_right _ _, le_max_right _ _⟩
  · exact ⟨min_le_left _ _, le_max_left _ _⟩

/-- So a partial sum lies between the sum of the row's negative elements and the sum of its positive ones (R144). -/
theorem sum_laneProduct_between {row lanes : Fin 8 → Byte} (hlanes : ∀ j, lanes j = 0 ∨ lanes j = 1)
    (S : Finset (Fin 8)) :
    ∑ j, min 0 (row j).toInt ≤ ∑ j ∈ S, (laneProduct row lanes j).toInt ∧
      ∑ j ∈ S, (laneProduct row lanes j).toInt ≤ ∑ j, max 0 (row j).toInt := by
  constructor
  · calc ∑ j, min 0 (row j).toInt ≤ ∑ j ∈ S, min 0 (row j).toInt :=
          sum_le_sum_of_subset_of_nonpos' (subset_univ S) fun j _ _ => min_le_left 0 _
      _ ≤ ∑ j ∈ S, (laneProduct row lanes j).toInt := sum_le_sum fun j _ => (laneProduct_between (hlanes j)).1
  · calc ∑ j ∈ S, (laneProduct row lanes j).toInt ≤ ∑ j ∈ S, max 0 (row j).toInt :=
          sum_le_sum fun j _ => (laneProduct_between (hlanes j)).2
      _ ≤ ∑ j, max 0 (row j).toInt :=
          sum_le_univ_sum_of_nonneg fun j => le_max_left 0 _

/-- Both rows' elements are components of the first eight powers (R141), none of magnitude above 8. -/
theorem row_abs_le {row : Fin 8 → Byte} (hrow : row = realRow ∨ row = imagRow) (j : Fin 8) : |(row j).toInt| ≤ 8 := by
  obtain ⟨hre, him⟩ := powB_position_abs_le j
  rcases hrow with rfl | rfl
  · rwa [(row_toInt j).1]
  · rwa [(row_toInt j).2]

/-- Neither row's negative elements sum to less than -14, nor its positive ones to more than 11 (R140). -/
theorem row_sum_extremes {row : Fin 8 → Byte} (hrow : row = realRow ∨ row = imagRow) :
    -14 ≤ ∑ j, min 0 (row j).toInt ∧ ∑ j, max 0 (row j).toInt ≤ 11 := by
  rcases hrow with rfl | rfl <;> decide

/-- Settles O17: every product lies between 0 and its row's element, so a partial sum lies between the row's extreme sums. -/
theorem packedDotProduct : Obligations.PackedDotProduct := by
  refine ⟨fun row lanes hlanes => ⟨fun j => laneProduct_toInt (hlanes j), dot8_toInt hlanes⟩,
    fun row lanes hrow hlanes => ⟨fun j => ?_, fun S => ?_⟩⟩
  · obtain ⟨hge, hle⟩ := laneProduct_between (row := row) (hlanes j)
    have helement := abs_le.1 (row_abs_le hrow j)
    omega
  · obtain ⟨hge, hle⟩ := sum_laneProduct_between (row := row) hlanes S
    obtain ⟨hmin, hmax⟩ := row_sum_extremes hrow
    exact ⟨hmin.trans hge, hle.trans hmax⟩

end Sys2Proof.Machine
end

section
namespace Sys2Proof.Machine

theorem abs_mul_scale (v : Int) (g : Nat) : |v * 16 ^ g| = |v| * 16 ^ g := by
  rw [abs_mul, abs_of_nonneg (by positivity : (0 : Int) ≤ 16 ^ g)]

/-- The scalar of a group, of magnitude at most 14, stays below `2^64` at each of the sixteen group scales (R145). -/
theorem abs_mul_scale_lt {v : Int} {g : Nat} (hv : |v| ≤ 14) (hg : g ≤ 15) : |v * 16 ^ g| < 2 ^ 64 :=
  calc |v * 16 ^ g| = |v| * 16 ^ g := abs_mul_scale v g
    _ ≤ 14 * 16 ^ 15 := by
      gcongr
      norm_num
    _ < 2 ^ 64 := by norm_num

/-- Shifting before extending gives a 32-bit signed value, so it misses a product of `2^31` or more (R145). -/
theorem signExtend_shiftLeft_ne {v : BitVec 32} {n : Nat} {p : Int} (hp : 2 ^ 31 ≤ p) :
    ((v <<< n).signExtend 128).toInt ≠ p := by
  rw [BitVec.toInt_signExtend_of_le (by norm_num)]
  have hlt := BitVec.toInt_lt (x := v <<< n)
  omega

/-- Settles O18: a scaled value inside the 128-bit range is what the shift gives; and for the other order of shift and extend,
the scalar 8 has the product `8·16^g`, which from `g = 7` on no 32-bit value reaches. -/
theorem scalarShiftMultiplies : Obligations.ScalarShiftMultiplies := by
  refine ⟨fun v g hsmall => shiftScalar_toInt ?_, fun v g hv hg => ?_, fun g hg _ => ⟨8, by decide, ?_⟩⟩
  · rw [← abs_mul_scale, abs_lt] at hsmall
    rw [fits_iff]
    omega
  · have hlt := abs_mul_scale_lt hv hg
    have hshift := shiftScalar_toInt (fits_of_abs_lt hlt)
    exact ⟨hshift, by rwa [hshift]⟩
  · refine signExtend_shiftLeft_ne ?_
    calc (2 : Int) ^ 31 = 8 * 16 ^ 7 := by norm_num
      _ ≤ 8 * 16 ^ g := by
        gcongr
        norm_num

end Sys2Proof.Machine
end

section
namespace Sys2Proof.Machine

section expansion
variable {d e : Word} {x y : Gauss}

/-- A digit and a multiple of b determine each other: the digit is the parity of the sum (R171). -/
theorem digit_add_mulB_injective {c c' : Bool}
    (h : Gauss.add ⟨if c then 1 else 0, 0⟩ x.mulB = Gauss.add ⟨if c' then 1 else 0, 0⟩ y.mulB) : c = c' ∧ x = y := by
  have hre := congrArg Gauss.re h
  have him := congrArg Gauss.im h
  simp only [Gauss.add_re, Gauss.add_im, Gauss.mulB_re, Gauss.mulB_im] at hre him
  have hparity : (if c then 1 else 0) - 2 * x.im = (if c' then 1 else 0) - 2 * y.im := by linarith
  obtain rfl : c = c' := by cases c <;> cases c' <;> simp at hparity ⊢ <;> omega
  exact ⟨rfl, Gauss.ext_parts (by omega) (by omega)⟩

/-- Digit `n` moves from the digit sum into the remainder, which is then divided by b once less (R179). -/
theorem digitSum_succ_add_rest (d : Word) (n : Nat) (x : Gauss) :
    (digitSum d (n + 1)).add (x.mul (powB (n + 1))) =
      (digitSum d n).add ((Gauss.add ⟨if d.getLsbD n then 1 else 0, 0⟩ x.mulB).mul (powB n)) := by
  rw [digitSum_succ, powB_succ, mul_mulB]
  split <;> ext <;> simp <;> ring

/-- The lowest `n` digits and the remainder that belongs to them are unique (R171, R177). -/
theorem digits_and_rest_unique {n : Nat}
    (h : (digitSum d n).add (x.mul (powB n)) = (digitSum e n).add (y.mul (powB n))) :
    (∀ k, k < n → d.getLsbD k = e.getLsbD k) ∧ x = y := by
  induction n generalizing x y with
  | zero => exact ⟨fun k hk => absurd hk k.not_lt_zero, by simpa [digitSum_zero, powB, Gauss.ext_parts_iff] using h⟩
  | succ n ih =>
    rw [digitSum_succ_add_rest, digitSum_succ_add_rest] at h
    obtain ⟨hlow, hrest⟩ := ih h
    obtain ⟨hdigit, hxy⟩ := digit_add_mulB_injective hrest
    refine ⟨fun k hk => ?_, hxy⟩
    rcases Nat.lt_succ_iff_lt_or_eq.1 hk with hlt | rfl
    · exact hlow k hlt
    · exact hdigit

/-- A digit sum is its lowest `m` digits and `b^m` times the sum of the digits above them (R10). -/
theorem digitSum_add (d : Word) (m n : Nat) :
    digitSum d (m + n) = (digitSum d m).add ((digitSum (d >>> m) n).mul (powB m)) := by
  induction n with
  | zero => ext <;> simp [digitSum_zero]
  | succ n ih =>
    have hbit : (d >>> m).getLsbD n = d.getLsbD (m + n) := BitVec.getLsbD_ushiftRight d m n
    rw [← Nat.add_assoc, digitSum_succ, digitSum_succ, ih, hbit, powB_add]
    split <;> ext <;> simp <;> ring

/-- Distinct digit strings have distinct values: the expansion in base b is unique (R180). -/
theorem eq_of_value_eq (h : value d = value e) : d = e := by
  have hsame := digits_and_rest_unique (n := 128) (x := ⟨0, 0⟩) (y := ⟨0, 0⟩)
    (congrArg (Gauss.add · (Gauss.mul ⟨0, 0⟩ (powB 128))) h)
  exact BitVec.eq_of_getLsbD_eq fun k hk => hsame.1 k hk

end expansion

/-- `LEN_OUT` has room for every bit length (R27). -/
theorem bitlen_le (q : Word) : bitlen q ≤ 128 := by
  rw [bitlen]
  split
  · exact Nat.zero_le _
  · next hq =>
    have hq0 : q.toNat ≠ 0 := fun h => hq (BitVec.eq_of_toNat_eq h)
    exact (Nat.log2_lt hq0).2 q.isLt

theorem setDigit_getLsbD (q : Word) {i : Nat} (hi : i < 128) (k : Nat) :
    (setDigit q i).getLsbD k = (q.getLsbD k || decide (k = i)) := by
  change (q ||| BitVec.twoPow 128 i).getLsbD k = _
  simp only [BitVec.getLsbD_or, BitVec.getLsbD_twoPow, hi, decide_true, Bool.true_and, eq_comm]

/-- With components below `2^64` both numerators of `acc_divb` fit (R175). -/
theorem accDivb_ovf_of_small {a : Acc} (c : Bool) (hre : |a.gauss.re| < 2 ^ 64) (him : |a.gauss.im| < 2 ^ 64) :
    (accDivb a c).ovf = a.ovf := by
  rcases accDivb_cases a c with ⟨-, -, -, hovf⟩ | ⟨hout, -⟩
  · exact hovf
  · rw [abs_lt, Acc.gauss_re] at hre
    rw [abs_lt, Acc.gauss_im] at him
    exact absurd ⟨(by rw [fits_iff]; split <;> omega), (by rw [fits_iff]; split <;> omega)⟩ hout

/-- An iteration is performed below the cap, on a non-zero accumulator with `OVF` clear (R173). -/
theorem ivContinues_iff (r : Extraction) :
    ivContinues r = true ↔ r.i < 128 ∧ accIsZero r.acc = false ∧ r.acc.ovf = false := by
  simp only [ivContinues, Bool.and_eq_true, decide_eq_true_eq, Bool.not_eq_true', and_assoc]

/-- The loop invariant of INV on the input `z` at the start of iteration `i`: the digits so far and the remainder make up
`z` (R179), and no value of a digit string overflows (R175). -/
structure ExtractionInv (z : Gauss) (r : Extraction) : Prop where
  idx_le : r.i ≤ 128
  digits_below : ∀ k, r.i ≤ k → r.q.getLsbD k = false
  input_eq : r.acc.ovf = false → z = (digitSum r.q r.i).add (r.acc.gauss.mul (powB r.i))
  no_overflow : Representable z → r.acc.ovf = false

theorem accLoad_extractionInv (re im : Word) : ExtractionInv (gaussOf re im) ⟨accLoad re im, 0, 0⟩ where
  idx_le := Nat.zero_le _
  digits_below k _ := BitVec.getLsbD_zero
  input_eq _ := by ext <;> simp [digitSum_zero, powB, accLoad]
  no_overflow _ := rfl

namespace ExtractionInv
variable {z : Gauss} {r : Extraction}

/-- Digit `k` of `QREG` after an iteration: the extracted digit stands at `i`, and no other digit changes (R172). -/
theorem getLsbD_iteration (hr : ExtractionInv z r) (hi : r.i < 128) (k : Nat) :
    (ivIteration r).q.getLsbD k = if k = r.i then accParity r.acc else r.q.getLsbD k := by
  have hnew := hr.digits_below r.i le_rfl
  change (if accParity r.acc then setDigit r.q r.i else r.q).getLsbD k = _
  cases accParity r.acc with
  | false =>
    simp only [Bool.false_eq_true, if_false]
    split
    · next hk => rw [hk, hnew]
    · rfl
  | true =>
    simp only [if_true, setDigit_getLsbD _ hi]
    split
    · next hk => simp [hk]
    · next hk => simp [hk]

/-- On the value of a digit string the remainder is the value of the digits not yet extracted (R179). -/
theorem rest_eq (hr : ExtractionInv z r) {e : Word} (he : value e = z) :
    r.acc.gauss = digitSum (e >>> r.i) (128 - r.i) := by
  have hinput := he.trans (hr.input_eq (hr.no_overflow ⟨e, he⟩))
  have hsplit := digitSum_add e r.i (128 - r.i)
  rw [Nat.add_sub_cancel' hr.idx_le] at hsplit
  exact (digits_and_rest_unique (hinput.symm.trans hsplit)).2

/-- An iteration keeps the invariant: the division is exact, and digit `i` of `QREG` is the digit it divided out (R179). -/
theorem iteration (hr : ExtractionInv z r) (hi : r.i < 128) (hovf : r.acc.ovf = false) :
    ExtractionInv z (ivIteration r) where
  idx_le := hi
  digits_below k hk := by
    have hlt : r.i < k := hk
    rw [hr.getLsbD_iteration hi, if_neg hlt.ne', hr.digits_below k hlt.le]
  input_eq hno := by
    have hlow : digitSum (ivIteration r).q r.i = digitSum r.q r.i :=
      digitSum_congr fun k hk => by rw [hr.getLsbD_iteration hi, if_neg hk.ne]
    have hdigit : (ivIteration r).q.getLsbD r.i = accParity r.acc := by
      rw [hr.getLsbD_iteration hi, if_pos rfl]
    obtain ⟨-, -, hdiv, -⟩ := divisionIsExact r.acc _ _ _ rfl rfl rfl
    obtain ⟨-, -, hexact⟩ := hdiv hno
    calc z = (digitSum r.q r.i).add (r.acc.gauss.mul (powB r.i)) := hr.input_eq hovf
      _ = (digitSum (ivIteration r).q (r.i + 1)).add ((ivIteration r).acc.gauss.mul (powB (r.i + 1))) := by
        rw [digitSum_succ_add_rest, hlow, hdigit, hexact]
        rfl
  no_overflow hz := by
    obtain ⟨e, he⟩ := hz
    obtain ⟨hre, him⟩ := digitSum_abs_lt (e >>> r.i) (Nat.sub_le 128 r.i)
    rw [← hr.rest_eq he] at hre him
    exact (accDivb_ovf_of_small _ hre him).trans hovf

/-- The loop keeps the invariant and ends where its condition fails (R173). -/
theorem loop (n : Nat) (hr : ExtractionInv z r) (hn : r.i + n = 128) :
    ExtractionInv z (ivLoop n r) ∧ ivContinues (ivLoop n r) = false := by
  induction n generalizing r with
  | zero => exact ⟨hr, by simp [ivLoop, ivContinues, show r.i = 128 from hn]⟩
  | succ n ih =>
    rw [ivLoop]
    split
    · next hgo =>
      obtain ⟨hi, -, hovf⟩ := (ivContinues_iff r).1 hgo
      exact ih (hr.iteration hi hovf) (by show r.i + 1 + n = 128; omega)
    · next hstop => exact ⟨hr, Bool.eq_false_iff.2 hstop⟩

end ExtractionInv

/-- The final test passes exactly on a zero accumulator with `OVF` clear (R174). -/
theorem ivFails_eq_false_iff (a : Acc) : ivFails a = false ↔ a.ovf = false ∧ accIsZero a = true := by
  rw [ivFails, Bool.or_eq_false_iff, Bool.not_eq_false']

theorem invLoop_extractionInv (re im : Word) :
    ExtractionInv (gaussOf re im) (invLoop re im) ∧ ivContinues (invLoop re im) = false :=
  (accLoad_extractionInv re im).loop 128 rfl

section invLoop
variable {re im : Word}

/-- When the final test passes, the digit string built has the input for its value (R180). -/
theorem value_invLoop_of_not_ivFails (h : ivFails (invLoop re im).acc = false) :
    value (invLoop re im).q = gaussOf re im := by
  obtain ⟨hr, -⟩ := invLoop_extractionInv re im
  obtain ⟨hovf, hzero⟩ := (ivFails_eq_false_iff _).1 h
  calc value (invLoop re im).q = digitSum (invLoop re im).q (invLoop re im).i :=
        digitSum_of_high_zero hr.idx_le hr.digits_below
    _ = gaussOf re im := by
        rw [hr.input_eq hovf, (accIsZero_iff _).1 hzero]
        ext <;> simp

/-- On the value of a digit string the final test passes: where the cap ends the loop, no digits are left for the remainder
(R173, R180). -/
theorem not_ivFails_of_representable (h : Representable (gaussOf re im)) : ivFails (invLoop re im).acc = false := by
  obtain ⟨hr, hstop⟩ := invLoop_extractionInv re im
  have hovf := hr.no_overflow h
  obtain ⟨e, he⟩ := h
  refine (ivFails_eq_false_iff _).2 ⟨hovf, ?_⟩
  by_cases hi : (invLoop re im).i < 128
  · by_contra hzero
    rw [(ivContinues_iff _).2 ⟨hi, Bool.eq_false_iff.2 hzero, hovf⟩] at hstop
    cases hstop
  · have hcap : (invLoop re im).i = 128 := le_antisymm hr.idx_le (not_lt.1 hi)
    rw [accIsZero_iff, hr.rest_eq he, hcap, Nat.sub_self, digitSum_zero]

end invLoop

/-- A failing INV completes with `ERR = 2` (R174). -/
theorem ivFinish_of_fails {s : State} (h : ivFails s.acc = true) : statusErr (ivFinish s).rsp.status = 2 := by
  rw [ivFinish, if_pos h]
  exact statusErr_statusWord _ _

/-- A succeeding INV completes with its digit string, no remainder and `STATUS = 0x00` (R178). -/
theorem ivFinish_of_not_fails {s : State} (herr : s.errw = 0) (h : ivFails s.acc = false) :
    (ivFinish s).rsp = ⟨true, 0x00, 0, 0, s.qreg, BitVec.ofNat 8 (bitlen s.qreg)⟩ := by
  obtain ⟨hovf, hzero⟩ := (ivFails_eq_false_iff _).1 h
  obtain ⟨hre, him⟩ : s.acc.re = 0 ∧ s.acc.im = 0 := by simpa [accIsZero] using hzero
  simp [ivFinish, h, complete, herr, hovf, hre, him]

/-- INV succeeds with the input's digit string or, when there is none, reports RepresentationOverflow (R180). -/
theorem exec_inv_cases (re im : Word) (s : State) :
    ∃ t, exec (.inv re im) s = .next t ∧
      ((∃ q, value q = gaussOf re im ∧ t.rsp = ⟨true, 0x00, 0, 0, q, BitVec.ofNat 8 (bitlen q)⟩) ∨
        (¬ Representable (gaussOf re im) ∧ statusErr t.rsp.status = 2)) := by
  refine ⟨_, rfl, ?_⟩
  cases h : ivFails (invLoop re im).acc with
  | false => exact .inl ⟨_, value_invLoop_of_not_ivFails h, ivFinish_of_not_fails rfl h⟩
  | true =>
    refine .inr ⟨fun hz => ?_, ivFinish_of_fails h⟩
    rw [not_ivFails_of_representable hz] at h
    cases h

/-- Settles O29: the digit string of a successful INV is the only one with the input's value, because expansions are
unique. -/
theorem inverseRoundTrip : Obligations.InverseRoundTrip := by
  intro re im s
  obtain ⟨t, hexec, ⟨q, hvalue, hrsp⟩ | ⟨hnone, herr⟩⟩ := exec_inv_cases re im s
  · refine ⟨t, hexec, fun e he => ?_, fun _ => ?_, fun hnot => absurd ⟨q, hvalue⟩ hnot⟩ <;> rw [hrsp]
    · obtain rfl : q = e := eq_of_value_eq (hvalue.trans he.symm)
      exact ⟨rfl, Nat.mod_eq_of_lt ((bitlen_le q).trans_lt (by norm_num)), rfl⟩
    · exact ⟨hvalue, rfl, rfl⟩
  · refine ⟨t, hexec, fun e he => absurd ⟨e, he⟩ hnone, fun hok => ?_, fun _ => herr⟩
    rw [herr] at hok
    cases hok

end Sys2Proof.Machine
end

section
namespace Sys2Proof

/-- Each defined command word decodes to its command, and every other one is no command (R82, R84). -/
theorem decodeOp_cases (cmd : Byte) :
    (cmd = 0x00 ∧ decodeOp cmd = .fs) ∨ (cmd = 0x01 ∧ decodeOp cmd = .fb) ∨ (cmd = 0x02 ∧ decodeOp cmd = .fr) ∨
    (cmd = 0x80 ∧ decodeOp cmd = .iv) ∨ (definedCommandWords.contains cmd = false ∧ decodeOp cmd = .bad) := by
  revert cmd
  decide

@[simp] theorem decode_scalar_word (a b : Word) : decode ⟨0x00#8, a, b⟩ = .ok (.fwdScalar a) := by
  rw [decode, show decodeOp 0x00#8 = .fs by decide]

@[simp] theorem decode_batch_word (a b : Word) : decode ⟨0x01#8, a, b⟩ = .ok (.fwdBatch a) := by
  rw [decode, show decodeOp 0x01#8 = .fb by decide]

@[simp] theorem decode_recur_word (a b : Word) : decode ⟨0x02#8, a, b⟩ = .ok (.fwdRecur a) := by
  rw [decode, show decodeOp 0x02#8 = .fr by decide]

@[simp] theorem decode_inverse_word (a b : Word) : decode ⟨0x80#8, a, b⟩ = .ok (.inv a b) := by
  rw [decode, show decodeOp 0x80#8 = .iv by decide]

/-- An undefined command word is refused under its own name (R84). -/
theorem decode_of_bad {r : Request} (h : decodeOp r.cmd = .bad) : decode r = .error (.invalidVariant r.cmd) := by
  rw [decode, h]

/-- What a request can be: one of the four commands with the ports as its operands, or one with an undefined command word
(R82 to R86). -/
theorem request_cases (r : Request) :
    (r = ⟨0x00, r.a, r.b⟩ ∧ decodeOp r.cmd = .fs) ∨ (r = ⟨0x01, r.a, r.b⟩ ∧ decodeOp r.cmd = .fb) ∨
    (r = ⟨0x02, r.a, r.b⟩ ∧ decodeOp r.cmd = .fr) ∨ (r = ⟨0x80, r.a, r.b⟩ ∧ decodeOp r.cmd = .iv) ∨
    (r.wf = false ∧ decodeOp r.cmd = .bad) := by
  obtain ⟨cmd, a, b⟩ := r
  rcases decodeOp_cases cmd with ⟨rfl, h⟩ | ⟨rfl, h⟩ | ⟨rfl, h⟩ | ⟨rfl, h⟩ | h
  · exact .inl ⟨rfl, h⟩
  · exact .inr (.inl ⟨rfl, h⟩)
  · exact .inr (.inr (.inl ⟨rfl, h⟩))
  · exact .inr (.inr (.inr (.inl ⟨rfl, h⟩)))
  · exact .inr (.inr (.inr (.inr h)))

/-- The record's three fields are the request's (R80). -/
theorem requestOfRecord_record (r : Request) : requestOfRecord r.record = r := by
  obtain ⟨cmd, a, b⟩ := r
  have ha : (cmd ++ b ++ a).extractLsb' 0 128 = a := BitVec.extractLsb'_append_eq_right
  have hb : (cmd ++ b ++ a).extractLsb' 128 128 = b := by
    rw [BitVec.extractLsb'_append_eq_of_le (by norm_num)]
    exact BitVec.extractLsb'_append_eq_right
  have hcmd : (cmd ++ b ++ a).extractLsb' 256 8 = cmd := by
    rw [BitVec.extractLsb'_append_eq_of_le (by norm_num)]
    exact BitVec.extractLsb'_append_eq_left
  simp only [requestOfRecord, Request.record, ha, hb, hcmd]

/-- The fields CMD, B and A make up the whole 264-bit record (R80). -/
theorem record_requestOfRecord (w : BitVec 264) : (requestOfRecord w).record = w := by
  have hhigh : w.extractLsb' 256 8 ++ w.extractLsb' 128 128 = w.extractLsb' 128 136 :=
    BitVec.extractLsb'_append_extractLsb'_eq_extractLsb' rfl
  have hall : w.extractLsb' 128 136 ++ w.extractLsb' 0 128 = w.extractLsb' 0 264 :=
    BitVec.extractLsb'_append_extractLsb'_eq_extractLsb' rfl
  rw [requestOfRecord, Request.record, hhigh, hall]
  exact BitVec.extractLsb'_eq_self

theorem decode_encode (i : Instr) : decode (encode i) = .ok i := by
  cases i <;> simp [encode]

theorem encode_wf (i : Instr) : (encode i).wf = true := by
  cases i <;> rfl

/-- Settles O4: the encoder writes one of the four defined command words, and the record keeps the three fields apart. -/
theorem decodeOfEncode : Obligations.DecodeOfEncode := by
  refine fun i => ⟨decode_encode i, ?_, encode_wf i⟩
  rw [decodeRecord, encodeRecord, requestOfRecord_record, decode_encode]

/-- A request is refused, under its own command word, exactly when it is not well formed (R84). -/
theorem decode_error_iff (r : Request) : decode r = .error (.invalidVariant r.cmd) ↔ r.wf = false := by
  rcases request_cases r with ⟨hr, -⟩ | ⟨hr, -⟩ | ⟨hr, -⟩ | ⟨hr, -⟩ | ⟨hwf, hbad⟩
  case inr.inr.inr.inr => exact ⟨fun _ => hwf, fun _ => decode_of_bad hbad⟩
  all_goals rw [hr]; simp [Request.wf, definedCommandWords]

/-- Encoding a decoded request gives it back, but for the second operand of a forward command (R22, R86). -/
theorem encode_of_decode {r : Request} {i : Instr} (h : decode r = .ok i) :
    encode i = r ∧ (∃ re im, i = .inv re im) ∨ encode i = { r with b := 0 } ∧ ¬ ∃ re im, i = .inv re im := by
  rcases request_cases r with ⟨hr, -⟩ | ⟨hr, -⟩ | ⟨hr, -⟩ | ⟨hr, -⟩ | ⟨-, hbad⟩
  case inr.inr.inr.inr => rw [decode_of_bad hbad] at h; cases h
  all_goals rw [hr] at h ⊢; simp at h; subst h; simp [encode]

/-- Settles O5: a record is its three fields, and decoding reads all of them but field B of a forward command. -/
theorem encodeOfDecode : Obligations.EncodeOfDecode := by
  refine ⟨fun w i h => ?_, decode_error_iff⟩
  rcases encode_of_decode h with ⟨henc, hinv⟩ | ⟨henc, hfwd⟩
  · refine ⟨by rw [henc], by rw [henc], fun _ => ?_, fun hfwd => absurd hinv hfwd⟩
    rw [encodeRecord, henc, record_requestOfRecord]
  · exact ⟨by rw [henc], by rw [henc], fun hinv => absurd hinv hfwd, fun _ => by rw [henc]⟩

/-- Settles O6, a sanity check of eight table words: each decodes by evaluation of the decoder. -/
theorem tableWordsDecode : Obligations.TableWordsDecode := by
  refine ⟨?_, ?_, ?_, ?_, ?_, ?_, ?_, ?_⟩ <;> rfl

theorem operandFits_iff (v : Int) : operandFits v = true ↔ -2 ^ 127 ≤ v ∧ v < 2 ^ 128 := by
  rw [operandFits, Bool.and_eq_true, decide_eq_true_eq, decide_eq_true_eq]
  norm_num

/-- The pattern of a written operand, as an unsigned number: a negative one stands for its two's complement (R89). -/
theorem operandPattern_toNat {v : Int} (h : operandFits v = true) :
    (operandPattern v).toNat = (if 0 ≤ v then v else v + 2 ^ 128).toNat := by
  rw [operandFits_iff] at h
  rw [operandPattern, BitVec.toNat_ofInt]
  congr 1
  norm_num at h ⊢
  split <;> omega

end Sys2Proof

namespace Sys2Proof.Machine

/-- A written operand in the signed range reads back as itself (R7, R89). -/
theorem operandPattern_toInt {v : Int} (h : Fits v) : (operandPattern v).toInt = v := by
  rw [operandPattern, ← wrap128_of_fits h]
  exact store_toInt v

/-- A signed 128-bit number may be written as an operand (R89). -/
theorem operandFits_of_fits {v : Int} (h : Fits v) : operandFits v = true := by
  rw [fits_iff] at h
  rw [operandFits_iff]
  omega

/-- Settles O7: a line assembles to its command word and its operands' patterns, and the pattern of an operand is the
operand modulo `2^128`. -/
theorem listingAssembles : Obligations.ListingAssembles := by
  refine ⟨fun d hwf => ⟨rfl, by simp [assemble], by simp [assemble], by simp [assemble],
    operandPattern_toNat hwf⟩, fun re im hre hre' him him' => ?_,
    fun word a b hwf => ⟨?_, rfl, rfl⟩⟩
  · have hfre : Fits re := ⟨hre, hre'⟩
    have hfim : Fits im := ⟨him, him'⟩
    refine ⟨?_, _, _, decode_inverse_word _ _, operandPattern_toInt hfre, operandPattern_toInt hfim⟩
    rw [Line.wf, operandFits_of_fits hfre, operandFits_of_fits hfim]
    rfl
  · simp only [Line.wf, Bool.and_eq_true, decide_eq_true_eq] at hwf
    obtain ⟨⟨hword, -⟩, -⟩ := hwf
    exact BitVec.toNat_ofNat word 8 ▸ Nat.mod_eq_of_lt hword

/-- Settles O37: the status word is the concatenation of its fields. -/
theorem statusFields : Obligations.StatusFields := fun ovf err =>
  ⟨statusErr_statusWord ovf err, statusOvf_statusWord ovf err, fun _ hk => statusWord_getLsbD_of_ge ovf err hk⟩

end Sys2Proof.Machine
end

section
namespace Sys2Proof.Machine

theorem bitlen_of_ne_zero {q : Word} (hq : q ≠ 0) : bitlen q = Nat.log2 q.toNat + 1 := if_neg hq

/-- A digit string's length is at most `k` exactly when it is below `2^k` as a number (R9). -/
theorem bitlen_le_iff (q : Word) (k : Nat) : bitlen q ≤ k ↔ q.toNat < 2 ^ k := by
  by_cases hq : q = 0
  · simp [hq]
  · have hq0 : q.toNat ≠ 0 := fun h => hq (BitVec.eq_of_toNat_eq h)
    rw [bitlen_of_ne_zero hq, Nat.add_one_le_iff, Nat.log2_lt hq0]

/-- A digit string's length is at most `k` exactly when it has no digit 1 at or above `k` (R9). -/
theorem bitlen_le_iff_getLsbD (q : Word) (k : Nat) : bitlen q ≤ k ↔ ∀ j, k ≤ j → q.getLsbD j = false := by
  rw [bitlen_le_iff]
  exact ⟨fun h j hj => Nat.testBit_lt_two_pow (h.trans_le (Nat.pow_le_pow_right (by norm_num) hj)),
    fun h => Nat.lt_pow_two_of_testBit _ h⟩

/-- No digit 1 stands at or above the length (R9). -/
theorem getLsbD_of_bitlen_le {q : Word} {k : Nat} (h : bitlen q ≤ k) : q.getLsbD k = false :=
  (bitlen_le_iff_getLsbD q (bitlen q)).1 le_rfl k h

/-- The length of a digit string whose highest digit 1 is digit `n` (R9). -/
theorem bitlen_eq_of_top {q : Word} {n : Nat} (htop : q.getLsbD n = true) (habove : ∀ k, n + 1 ≤ k → q.getLsbD k = false) :
    bitlen q = n + 1 := by
  refine le_antisymm ((bitlen_le_iff_getLsbD q (n + 1)).2 habove) ?_
  by_contra hshort
  rw [getLsbD_of_bitlen_le (by omega)] at htop
  cases htop

/-- Dropping the lowest `k` digits leaves nothing exactly when the length is at most `k` (R9, R164). -/
theorem ushiftRight_eq_zero_iff (q : Word) (k : Nat) : q >>> k = 0 ↔ bitlen q ≤ k := by
  rw [bitlen_le_iff, ← BitVec.toNat_inj, BitVec.toNat_ushiftRight, Nat.shiftRight_eq_div_pow]
  exact Nat.div_eq_zero_iff_lt (by positivity)

/-- The digit just below the length is 1 (R9). -/
theorem getLsbD_bitlen_sub_one {q : Word} (hq : q ≠ 0) : q.getLsbD (bitlen q - 1) = true := by
  have hpos := bitlen_of_ne_zero hq
  by_contra hbit
  have hshort : bitlen q ≤ bitlen q - 1 := (bitlen_le_iff_getLsbD q _).2 fun j hj => by
    rcases hj.eq_or_lt with rfl | hlt
    · exact Bool.eq_false_iff.2 hbit
    · exact getLsbD_of_bitlen_le (by omega)
  omega

/-- Settles O2: a length is at most `k` exactly when no digit 1 stands at or above `k`. -/
theorem bitLengthIsHighestBit : Obligations.BitLengthIsHighestBit := by
  refine ⟨bitlen_zero, fun q hq => ⟨?_, bitlen_le q, getLsbD_bitlen_sub_one hq, fun k => getLsbD_of_bitlen_le⟩⟩
  rw [bitlen_of_ne_zero hq]
  exact Nat.le_add_left 1 _

end Sys2Proof.Machine
end

section
namespace Sys2Proof.Machine

/-- Settles O16: position by position, the rows against the table at `s = 1` and against the powers. -/
theorem rowsAreTableColumns : Obligations.RowsAreTableColumns := by
  intro j
  obtain ⟨hre, him⟩ := row_toInt j
  refine ⟨?_, ?_, hre, him⟩ <;> clear hre him <;> revert j <;> decide

/-- Bit `j` of the group's byte is the digit of that position in the group (R62). -/
theorem group_getLsbD (d : Word) (g : Nat) (j : Fin 8) : (group d g).getLsbD j = groupBit d g j := by
  rw [group, BitVec.getLsbD_extractLsb', groupBit]
  simp

/-- Group `g` is byte `g` of the operand as a little-endian number (R63). -/
theorem group_toNat (d : Word) (g : Nat) : (group d g).toNat = d.toNat / 256 ^ g % 256 := by
  rw [group, BitVec.extractLsb'_toNat, Nat.shiftRight_eq_div_pow, pow_mul]
  rfl

/-- A lane is a bit of the group's byte (R142). -/
theorem lane_eq_group (d : Word) (g : Nat) (j : Fin 8) : lane d g j = if (group d g).getLsbD j then 1 else 0 := by
  rw [group_getLsbD, lane_eq]

/-- Settles O19: the lanes are the bits of the group's byte, and the pass reads the operand through its lanes only. -/
theorem batchReadsOneByte : Obligations.BatchReadsOneByte := by
  refine ⟨fun d e g a hgroup => ?_, fun d g j => ⟨group_getLsbD d g j, group_toNat d g, lane_eq_group d g j⟩⟩
  have hlanes : lane d g = lane e g := funext fun j => by rw [lane_eq_group, lane_eq_group, hgroup]
  rw [fbGroupPass, fbGroupPass, hlanes]

end Sys2Proof.Machine
end

section
namespace Sys2Proof.Machine
open Finset

/-- Additions from any accumulator leave the wrapped exact sums (R108). -/
theorem foldl_accAdd_toInt (l : List (Word × Word)) (a : Acc) :
    (l.foldl (fun a p => accAdd a p.1 p.2) a).re.toInt = wrap128 (a.re.toInt + (l.map (·.1.toInt)).sum) ∧
    (l.foldl (fun a p => accAdd a p.1 p.2) a).im.toInt = wrap128 (a.im.toInt + (l.map (·.2.toInt)).sum) := by
  induction l generalizing a with
  | nil => simp [wrap128_of_fits, toInt_fits]
  | cons p l ih =>
    obtain ⟨hre, him⟩ := ih (accAdd a p.1 p.2)
    rw [List.foldl_cons, hre, him]
    simp only [accAdd, store_toInt, wrap128_eq_bmod, Int.bmod_add_bmod, List.map_cons, List.sum_cons, add_assoc,
      and_self]

/-- From a clear accumulator they are the wrapped sums of the addends (R108). -/
theorem foldl_accAdd_accClear_toInt (l : List (Word × Word)) :
    (l.foldl (fun a p => accAdd a p.1 p.2) accClear).re.toInt = wrap128 (l.map (·.1.toInt)).sum ∧
    (l.foldl (fun a p => accAdd a p.1 p.2) accClear).im.toInt = wrap128 (l.map (·.2.toInt)).sum := by
  simpa [accClear] using foldl_accAdd_toInt l accClear

/-- The accumulator holds the sum of the powers `b^k` with `k` in a set, and no overflow was detected (R108, R111). -/
structure HoldsPowers (S : Finset Nat) (a : Acc) : Prop where
  below : ∀ k ∈ S, k < 128
  gauss_eq : a.gauss = ⟨∑ k ∈ S, (powB k).re, ∑ k ∈ S, (powB k).im⟩
  no_overflow : a.ovf = false

theorem accClear_holdsPowers : HoldsPowers ∅ accClear := ⟨by simp, rfl, rfl⟩

theorem HoldsDigits.holdsPowers {d : Word} {n : Nat} {a : Acc} (ha : HoldsDigits d n a) (hn : n ≤ 128) :
    HoldsPowers (onePositions d n) a :=
  ⟨fun _ hk => (lt_of_mem_onePositions hk).trans_le hn, by rw [ha.gauss_eq, digitSum_eq_sum], ha.no_overflow⟩

namespace HoldsPowers

/-- Adding a further power keeps the invariant: every sum of distinct powers fits (R111). -/
theorem accAdd {S : Finset Nat} {a : Acc} {k : Nat} {x y : Word} (ha : HoldsPowers S a) (hk : k < 128) (hnew : k ∉ S)
    (hpow : gaussOf x y = powB k) : HoldsPowers (insert k S) (accAdd a x y) := by
  have hbelow : ∀ j ∈ insert k S, j < 128 := by simpa [hk] using ha.below
  have hsum : a.gauss.add (gaussOf x y) =
      ⟨∑ j ∈ insert k S, (powB j).re, ∑ j ∈ insert k S, (powB j).im⟩ := by
    rw [sum_insert hnew, sum_insert hnew, ha.gauss_eq, hpow]
    exact Gauss.ext_parts (add_comm _ _) (add_comm _ _)
  obtain ⟨hre, him⟩ := sum_powB_abs_lt hbelow
  obtain ⟨hgauss, hovf⟩ := accAdd_of_fits (a := a) (dre := x) (dim := y)
    (by rw [← Acc.gauss_re, ← gaussOf_re x y, ← Gauss.add_re, hsum]; exact fits_of_abs_lt hre)
    (by rw [← Acc.gauss_im, ← gaussOf_im x y, ← Gauss.add_im, hsum]; exact fits_of_abs_lt him)
  exact ⟨hbelow, hgauss.trans hsum, hovf.trans ha.no_overflow⟩

/-- Adding any further distinct powers, in any order, keeps it (R108). The powers are `pow i`, the addends `contrib i`, for
`i` in a list. -/
theorem foldl {α : Type} {pow : α → Nat} {contrib : α → Word × Word} {l : List α} {S : Finset Nat} {a : Acc}
    (ha : HoldsPowers S a) (hpow : ∀ i ∈ l, pow i < 128 ∧ gaussOf (contrib i).1 (contrib i).2 = powB (pow i))
    (hdistinct : (l.map pow).Nodup) (hnew : ∀ i ∈ l, pow i ∉ S) :
    HoldsPowers (S ∪ (l.map pow).toFinset)
      (l.foldl (fun a i => Machine.accAdd a (contrib i).1 (contrib i).2) a) := by
  induction l generalizing S a with
  | nil => simpa using ha
  | cons i l ih =>
    rw [List.map_cons, List.nodup_cons] at hdistinct
    obtain ⟨hi, hrest⟩ := hdistinct
    obtain ⟨hlt, hgauss⟩ := hpow i List.mem_cons_self
    have hstep := ih (ha.accAdd hlt (hnew i List.mem_cons_self) hgauss)
      (fun j hj => hpow j (List.mem_cons_of_mem i hj)) hrest fun j hj => by
        rw [mem_insert, not_or]
        exact ⟨fun heq => hi (heq ▸ List.mem_map_of_mem hj), hnew j (List.mem_cons_of_mem i hj)⟩
    rwa [List.map_cons, List.toFinset_cons, union_insert, ← insert_union]

/-- The set of powers determines the accumulator. -/
theorem unique {S : Finset Nat} {a a' : Acc} (ha : HoldsPowers S a) (ha' : HoldsPowers S a') : a = a' :=
  Acc.eq_of_gauss (ha.gauss_eq.trans ha'.gauss_eq.symm) (ha.no_overflow.trans ha'.no_overflow.symm)

end HoldsPowers

/-- The patterns of a power below `b^128` hold that power: it fits (R121). -/
theorem powerPatterns_gauss {k : Nat} (hk : k < 128) : gaussOf (powerPatterns k).1 (powerPatterns k).2 = powB k := by
  obtain ⟨hre, him⟩ := powB_abs_lt hk
  exact Gauss.ext_parts (store_toInt_of_fits (fits_of_abs_lt hre)) (store_toInt_of_fits (fits_of_abs_lt him))

/-- An overflow on the way up from `SMAX` that another order of the same additions avoids (R108). -/
theorem accAdd_ovf_depends_on_order :
    ∃ l l' : List (Word × Word), l.Perm l' ∧
      (l.foldl (fun a p => accAdd a p.1 p.2) accClear).ovf ≠ (l'.foldl (fun a p => accAdd a p.1 p.2) accClear).ovf :=
  ⟨[(store smax, 0), (1, 0), (-1, 0)], [(store smax, 0), (-1, 0), (1, 0)], (List.Perm.swap _ _ _).cons _, by decide⟩

/-- Settles O13: a sum does not depend on the order of its terms, wrapped or not, and the partial sums of distinct powers all
fit. -/
theorem accumulationOrderFree : Obligations.AccumulationOrderFree := by
  refine ⟨foldl_accAdd_accClear_toInt, fun l l' hperm => ?_, accAdd_ovf_depends_on_order, fun l hnodup hlt => ?_⟩
  · obtain ⟨hre, him⟩ := foldl_accAdd_accClear_toInt l
    obtain ⟨hre', him'⟩ := foldl_accAdd_accClear_toInt l'
    refine Gauss.ext_parts ?_ ?_
    · rw [Acc.gauss_re, Acc.gauss_re, hre, hre', (hperm.map _).sum_eq]
    · rw [Acc.gauss_im, Acc.gauss_im, him, him', (hperm.map _).sum_eq]
  · rw [List.foldl_map]
    exact (accClear_holdsPowers.foldl (pow := id) (contrib := powerPatterns)
      (fun k hk => ⟨hlt k hk, powerPatterns_gauss (hlt k hk)⟩) (by simpa using hnodup) (by simp)).no_overflow

/-- A group pass in any order, from the digits below the group, adds the powers at the group's digits 1 (R133). -/
theorem groupPass_holdsPowers {d : Word} {g : Nat} {a : Acc} {order : List (Fin 8)} (ha : HoldsDigits d (8 * g) a)
    (hg : g < 16) (horder : order.Nodup) {s : Word} (hs : s.toNat = 16 ^ g) :
    HoldsPowers
      (onePositions d (8 * g) ∪ ((order.filter (groupBit d g)).map fun j : Fin 8 => 8 * g + (j : Nat)).toFinset)
      (order.foldl (fun a j => if groupBit d g j then accAdd a (ctContrib j s).1 (ctContrib j s).2 else a) a) := by
  rw [← List.foldl_filter]
  refine (ha.holdsPowers (by omega)).foldl (fun j _ => ⟨by omega, ctContrib_gauss hg j hs⟩)
    ((horder.filter _).map fun i j hij => Fin.ext (by omega)) fun j _ hmem => ?_
  have hlt := lt_of_mem_onePositions hmem
  omega

theorem bitPositions_nodup : bitPositions.Nodup := by decide

/-- Settles O24: in every order the pass adds the same distinct powers, and their partial sums all fit. -/
theorem groupPassOrderFree : Obligations.GroupPassOrderFree := by
  intro d g a order hg hperm hgauss hovf
  have hlt : 16 ^ g < 2 ^ 128 :=
    calc 16 ^ g < 16 ^ 16 := Nat.pow_lt_pow_right (by norm_num) hg
      _ < 2 ^ 128 := by norm_num
  have hscale : (BitVec.ofNat 128 (16 ^ g)).toNat = 16 ^ g := by rw [BitVec.toNat_ofNat, Nat.mod_eq_of_lt hlt]
  have ha : HoldsDigits d (8 * g) a := ⟨hgauss, hovf⟩
  have hany := groupPass_holdsPowers ha hg (hperm.nodup_iff.2 bitPositions_nodup) hscale
  have hascending := groupPass_holdsPowers ha hg bitPositions_nodup hscale
  rw [List.toFinset_eq_of_perm _ _ ((hperm.filter _).map _)] at hany
  exact hany.unique hascending

end Sys2Proof.Machine
end

section
namespace Sys2Proof.Machine

/-- The accumulator that holds all digits of a digit string up to its length holds the whole string. -/
theorem HoldsDigits.of_bitlen_le {d : Word} {n : Nat} {a : Acc} (ha : HoldsDigits d n a) (hn : n ≤ 128)
    (hlen : bitlen d ≤ n) : HoldsDigits d 128 a :=
  ⟨by rw [ha.gauss_eq, digitSum_of_high_zero hn fun k hk => getLsbD_of_bitlen_le (hlen.trans hk)], ha.no_overflow⟩

/-- The loop runs while digits remain, so its position ends at the length or where it already was (R160, R164). -/
theorem frLoop_k {d : Word} (n : Nat) {r : Recurrence} (hrem : r.rem = d >>> r.k) (hn : bitlen d ≤ r.k + n) :
    (frLoop n r).k = max r.k (bitlen d) := by
  induction n generalizing r with
  | zero => exact (max_eq_left hn).symm
  | succ n ih =>
    have hzero := ushiftRight_eq_zero_iff d r.k
    rw [frLoop]
    split
    case isTrue hdone =>
      rw [hrem, hzero] at hdone
      exact (max_eq_left hdone).symm
    case isFalse hmore =>
      rw [hrem, hzero] at hmore
      have hnext : (frIteration r).rem = d >>> (frIteration r).k := by
        change r.rem >>> 1 = d >>> (r.k + 1)
        rw [hrem, BitVec.shiftRight_add]
      rw [ih hnext (by change bitlen d ≤ r.k + 1 + n; omega)]
      change max (r.k + 1) (bitlen d) = max r.k (bitlen d)
      omega

theorem fwdRecurLoop_k (d : Word) : (fwdRecurLoop d).k = max 2 (bitlen d) :=
  frLoop_k 126 (frStart_inv d).rem_eq (bitlen_le d)

theorem fwdRecurLoop_rem (d : Word) : (fwdRecurLoop d).rem = 0 := by
  rw [(fwdRecurLoop_inv d).rem_eq, ushiftRight_eq_zero_iff, fwdRecurLoop_k]
  exact le_max_right _ _

/-- FWD.RECUR ends with all 128 digits summed and no overflow (R160). -/
theorem fwdRecurLoop_holdsDigits (d : Word) : HoldsDigits d 128 (fwdRecurLoop d).acc := by
  have hlen := bitlen_le d
  have hk := fwdRecurLoop_k d
  exact (fwdRecurLoop_inv d).holds.of_bitlen_le (by omega) (by omega)

/-- With nothing above the two lowest digits the loop does not run (R164). -/
theorem fwdRecurLoop_of_lt_four {d : Word} (hd : d.toNat < 4) : fwdRecurLoop d = frStart d := by
  have hrem : (frStart d).rem = 0 := (ushiftRight_eq_zero_iff d 2).2 ((bitlen_le_iff d 2).2 hd)
  rw [fwdRecurLoop, frLoop, if_pos hrem]

/-- Settles O25: the loop starts at position 2 and runs while digits remain, which is up to the length. -/
theorem recurrenceIterations : Obligations.RecurrenceIterations := by
  intro d
  have hlen := bitlen_le d
  have hk := fwdRecurLoop_k d
  exact ⟨by omega, by omega, fwdRecurLoop_rem d, fwdRecurLoop_of_lt_four⟩

/-- The iteration keeps the loop invariant whatever remains (R163). -/
theorem RecurrenceInv.iterate {d : Word} (n : Nat) {r : Recurrence} (hr : RecurrenceInv d r) (hn : r.k + n ≤ 128) :
    RecurrenceInv d (Machine.frIteration^[n] r) ∧ (Machine.frIteration^[n] r).k = r.k + n := by
  induction n generalizing r with
  | zero => exact ⟨hr, rfl⟩
  | succ n ih =>
    have hnext : (Machine.frIteration r).k = r.k + 1 := rfl
    obtain ⟨hinv, hk⟩ := ih (hr.frIteration (by omega)) (by omega)
    exact ⟨hinv, by rw [Function.iterate_succ_apply, hk, hnext]; omega⟩

/-- Settles O26: both loops end with all 128 digits summed. -/
theorem recurrenceFixedLengthAgrees : Obligations.RecurrenceFixedLengthAgrees := by
  intro d
  obtain ⟨hinv, hk⟩ := (frStart_inv d).iterate 126 (show 2 + 126 ≤ 128 by norm_num)
  have hholds := hinv.holds
  rw [show _ = 128 from hk] at hholds
  rw [hholds.eq_store_value, (fwdRecurLoop_holdsDigits d).eq_store_value]

/-- Settles O21: the loop leaves the digit string's value in the accumulator, and nothing writes `SCALE` after acceptance. -/
theorem forwardBatchResult : Obligations.ForwardBatchResult := by
  intro d s
  have hholds := fwdBatchLoop_holdsDigits d
  have hdone := complete_of_no_error (s := { accept .fb d 0 s with acc := fwdBatchLoop d, idx := 16 }) rfl rfl
    hholds.no_overflow
  simp only [exec, execFwdBatch]
  rw [hdone, hholds.eq_store_value]
  rfl

/-- Settles O22: the loop leaves the digit string's value in the accumulator, and its position, at the length or 2, says
which power `PWR` holds. -/
theorem forwardRecurResult : Obligations.ForwardRecurResult := by
  intro d s
  have hholds := fwdRecurLoop_holdsDigits d
  have hpower := (fwdRecurLoop_inv d).power_eq
  rw [fwdRecurLoop_k] at hpower
  have hre : (fwdRecurLoop d).pr.toInt = (powB (max 2 (bitlen d) - 1)).re := congrArg Gauss.re hpower
  have him : (fwdRecurLoop d).pi.toInt = (powB (max 2 (bitlen d) - 1)).im := congrArg Gauss.im hpower
  rw [← hre, ← him, store_of_toInt, store_of_toInt]
  refine ⟨?_, rfl, rfl⟩
  simp only [exec, execFwdRecur]
  rw [complete_of_no_error rfl rfl hholds.no_overflow, hholds.eq_store_value, fwdRecurLoop_k, fwdRecurLoop_rem]
  rfl

/-- The response of each forward command (R136, R149, R167). -/
def forwardAnswer (d : Word) : Response := ⟨true, 0x00, store (value d).re, store (value d).im, 0, 0⟩

/-- A forward command on `d` answers `value(d)` from every state. -/
theorem exec_forward {d : Word} {i : Instr} (hi : i = .fwdScalar d ∨ i = .fwdBatch d ∨ i = .fwdRecur d) (s : State) :
    ∃ t, exec i s = .next t ∧ t.rsp = forwardAnswer d := by
  rcases hi with rfl | rfl | rfl
  · exact ⟨_, (forwardScalarResult d s).1, rfl⟩
  · exact ⟨_, forwardBatchResult d s, rfl⟩
  · exact ⟨_, (forwardRecurResult d s).1, rfl⟩

/-- Settles O23: each of the three answers `value(d)` from every state. -/
theorem forwardVariantsAgree : Obligations.ForwardVariantsAgree := by
  intro d s s' s''
  obtain ⟨t, h, hr⟩ := exec_forward (.inl rfl : _ ∨ Instr.fwdScalar d = .fwdBatch d ∨ _) s
  obtain ⟨t', h', hr'⟩ := exec_forward (i := .fwdBatch d) (.inr (.inl rfl)) s'
  obtain ⟨t'', h'', hr''⟩ := exec_forward (i := .fwdRecur d) (.inr (.inr rfl)) s''
  exact ⟨t, t', t'', h, h', h'', hr.trans hr'.symm, hr'.trans hr''.symm⟩

/-- Settles O27: expansions in base b are unique, digit by digit from the lowest. -/
theorem expansionUnique : Obligations.ExpansionUnique := fun _ _ => eq_of_value_eq

end Sys2Proof.Machine
end

section
namespace Sys2Proof.Machine

section iteration
variable {z : Gauss} {r : Extraction}

/-- What INV keeps at the start of iteration `i`, also after a detected overflow, which has extracted one digit more than it
has divided out (R176, R179). -/
structure Divided (z : Gauss) (r : Extraction) : Prop where
  idx_le : r.i ≤ 128
  digits_below : ∀ k, r.i ≤ k → r.q.getLsbD k = false
  overflow_nonzero : r.acc.ovf = true → 1 ≤ r.i ∧ accIsZero r.acc = false
  input_eq : z =
    (digitSum r.q (divisions r.acc.ovf r.i)).add (r.acc.gauss.mul (powB (divisions r.acc.ovf r.i)))

/-- While no overflow is detected, that is the loop invariant of R179. -/
theorem Divided.extractionInv (hr : Divided z r) (hovf : r.acc.ovf = false) : ExtractionInv z r where
  idx_le := hr.idx_le
  digits_below := hr.digits_below
  input_eq _ := by
    have hinput := hr.input_eq
    rwa [hovf] at hinput
  no_overflow _ := hovf

/-- An iteration that detects an overflow changes nothing of the accumulator but the flag (R105). -/
theorem ivIteration_acc_of_overflow (hovf : r.acc.ovf = false) (hnext : (ivIteration r).acc.ovf = true) :
    (ivIteration r).acc = { r.acc with ovf := true } := by
  rcases accDivb_cases r.acc (accParity r.acc) with ⟨-, -, -, hflag⟩ | ⟨-, hkept⟩
  · rw [show (ivIteration r).acc.ovf = r.acc.ovf from hflag, hovf] at hnext
    cases hnext
  · exact hkept

/-- An iteration keeps it. -/
theorem Divided.iteration (hr : Divided z r) (hgo : ivContinues r = true) : Divided z (ivIteration r) := by
  obtain ⟨hi, hnonzero, hovf⟩ := (ivContinues_iff r).1 hgo
  have hinv := hr.extractionInv hovf
  have hnext := hinv.iteration hi hovf
  cases hflag : (ivIteration r).acc.ovf with
  | false =>
    refine ⟨hnext.idx_le, hnext.digits_below, fun h => ?_, ?_⟩
    · rw [hflag] at h
      cases h
    · rw [hflag]
      exact hnext.input_eq hflag
  | true =>
    have hacc := ivIteration_acc_of_overflow hovf hflag
    have hlow : digitSum (ivIteration r).q r.i = digitSum r.q r.i :=
      digitSum_congr fun k hk => by rw [hinv.getLsbD_iteration hi, if_neg hk.ne]
    refine ⟨hnext.idx_le, hnext.digits_below, fun _ => ⟨Nat.le_add_left 1 r.i, ?_⟩, ?_⟩
    · rw [hacc]
      exact hnonzero
    · rw [hflag, hacc]
      exact (hinv.input_eq hovf).trans (congrArg (Gauss.add · _) hlow.symm)

/-- A non-zero remainder that one division takes to zero is the digit 1 (R173). -/
theorem accParity_of_quotient_zero {a : Acc} (hnonzero : accIsZero a = false)
    (hovf : (accDivb a (accParity a)).ovf = false) (hzero : accIsZero (accDivb a (accParity a)) = true) :
    accParity a = true := by
  obtain ⟨-, -, hdiv, -⟩ := divisionIsExact a _ _ _ rfl rfl rfl
  obtain ⟨-, -, hexact⟩ := hdiv hovf
  rw [(accIsZero_iff _).1 hzero] at hexact
  by_contra hparity
  rw [if_neg hparity] at hexact
  rw [(accIsZero_iff a).2 (hexact.trans (by decide))] at hnonzero
  cases hnonzero

/-- What INV's exits rest on beside: with nothing left to divide the index is the length of the digit string, and a detected
overflow is that of dividing out the last digit (R173, R176, R178). -/
structure Extracted (z : Gauss) (r : Extraction) : Prop extends Divided z r where
  length_eq : accIsZero r.acc = true → r.i = bitlen r.q
  overflow_digit : r.acc.ovf = true →
    r.q.getLsbD (r.i - 1) = accParity r.acc ∧ (accDivb { r.acc with ovf := false } (accParity r.acc)).ovf = true

theorem accLoad_extracted (re im : Word) : Extracted (gaussOf re im) ⟨accLoad re im, 0, 0⟩ where
  idx_le := Nat.zero_le _
  digits_below _ _ := BitVec.getLsbD_zero
  overflow_nonzero h := by cases h
  input_eq := (accLoad_extractionInv re im).input_eq rfl
  length_eq _ := bitlen_zero.symm
  overflow_digit h := by cases h

/-- An iteration keeps it. -/
theorem Extracted.iteration (hr : Extracted z r) (hgo : ivContinues r = true) : Extracted z (ivIteration r) := by
  obtain ⟨hi, hnonzero, hovf⟩ := (ivContinues_iff r).1 hgo
  have hnext := hr.toDivided.iteration hgo
  have hdigit : (ivIteration r).q.getLsbD r.i = accParity r.acc := by
    rw [(hr.extractionInv hovf).getLsbD_iteration hi, if_pos rfl]
  refine ⟨hnext, fun hzero => ?_, fun hflag => ?_⟩
  · have hflag : (ivIteration r).acc.ovf = false := by
      by_contra h
      rw [(hnext.overflow_nonzero (by simpa using h)).2] at hzero
      cases hzero
    rw [accParity_of_quotient_zero hnonzero hflag hzero] at hdigit
    exact (bitlen_eq_of_top hdigit hnext.digits_below).symm
  · have hacc := ivIteration_acc_of_overflow hovf hflag
    have hsame : ({ (ivIteration r).acc with ovf := false } : Acc) = r.acc := by rw [hacc, ← hovf]
    have hparity : accParity (ivIteration r).acc = accParity r.acc := by rw [hacc]; rfl
    rw [hsame, hparity]
    exact ⟨hdigit, hflag⟩

/-- What every iteration keeps, the loop keeps. -/
theorem ivLoop_induction {P : Extraction → Prop} (hstep : ∀ r, ivContinues r = true → P r → P (ivIteration r)) (n : Nat)
    {r : Extraction} (hr : P r) : P (ivLoop n r) := by
  induction n generalizing r with
  | zero => exact hr
  | succ n ih =>
    rw [ivLoop]
    split
    case isTrue hgo => exact ih (hstep r hgo hr)
    case isFalse => exact hr

end iteration

theorem invLoop_extracted (re im : Word) : Extracted (gaussOf re im) (invLoop re im) :=
  ivLoop_induction (fun _ hgo hr => hr.iteration hgo) 128 (accLoad_extracted re im)

/-- `ERRW` after the final test of INV (R174). -/
def inverseError (a : Acc) : BitVec 2 := if ivFails a then errorCode .representationOverflow else 0

/-- The response of INV, of what its loop leaves (R37, R178). -/
def inverseAnswer (r : Extraction) : Response :=
  ⟨true, statusWord r.acc.ovf (inverseError r.acc), r.acc.re, r.acc.im, r.q, BitVec.ofNat 8 (bitlen r.q)⟩

@[simp] theorem inverseError_success : inverseError ⟨0#128, 0#128, false⟩ = 0#2 := by decide

@[simp] theorem inverseAnswer_success (q : Word) (i : Nat) :
    inverseAnswer ⟨⟨0#128, 0#128, false⟩, q, i⟩ = ⟨true, 0#8, 0#128, 0#128, q, BitVec.ofNat 8 (bitlen q)⟩ := by
  simp [inverseAnswer]

/-- Either ending of INV is a completion with the error code of the final test (R174). -/
theorem ivFinish_eq_complete {s : State} (herr : s.errw = 0) :
    ivFinish s = complete { s with errw := inverseError s.acc } := by
  rw [ivFinish, inverseError]
  split
  · rfl
  · rw [← herr]

/-- Every register after INV, of what its loop leaves (R178). -/
theorem exec_inv (re im : Word) (s : State) :
    exec (.inv re im) s =
      .next
        { s with
          rsp := inverseAnswer (invLoop re im)
          phase := .idle
          op := .iv
          idx := BitVec.ofNat 8 (invLoop re im).i
          errw := inverseError (invLoop re im).acc
          dreg := re
          scale := 1
          pwrRe := -1
          pwrIm := 1
          qreg := (invLoop re im).q
          acc := (invLoop re im).acc } := by
  simp only [exec, execInv]
  rw [ivFinish_eq_complete rfl]
  rfl

/-- The three exits of INV: nothing left, the cap, a detected overflow; each with its status (R173, R176, R178). -/
theorem invLoop_exits (re im : Word) :
    ((invLoop re im).acc = ⟨0, 0, false⟩ ∧ (inverseAnswer (invLoop re im)).status = 0x00) ∨
    (accIsZero (invLoop re im).acc = false ∧ (invLoop re im).acc.ovf = false ∧ (invLoop re im).i = 128 ∧
      (inverseAnswer (invLoop re im)).status = 0x02) ∨
    (accIsZero (invLoop re im).acc = false ∧ (invLoop re im).acc.ovf = true ∧
      (inverseAnswer (invLoop re im)).status = 0x06) := by
  have hr := invLoop_extracted re im
  have hstop := (invLoop_extractionInv re im).2
  cases hovf : (invLoop re im).acc.ovf with
  | true =>
    have hnonzero := (hr.overflow_nonzero hovf).2
    exact .inr (.inr ⟨hnonzero, rfl, by simp [inverseAnswer, inverseError, ivFails, hovf]⟩)
  | false =>
    cases hzero : accIsZero (invLoop re im).acc with
    | true =>
      have hacc : (invLoop re im).acc = ⟨0, 0, false⟩ := Acc.eq_of_gauss ((accIsZero_iff _).1 hzero) hovf
      exact .inl ⟨hacc, by simp [inverseAnswer, hacc]⟩
    | false =>
      have hcap : (invLoop re im).i = 128 := by
        by_contra hne
        rw [(ivContinues_iff _).2 ⟨lt_of_le_of_ne hr.idx_le hne, hzero, hovf⟩] at hstop
        cases hstop
      exact .inr (.inl ⟨rfl, rfl, hcap, by simp [inverseAnswer, inverseError, ivFails, hovf, hzero]⟩)

/-- A non-zero accumulator has a non-zero component (R106). -/
theorem accIsZero_eq_false_iff (a : Acc) : accIsZero a = false ↔ ¬(a.re = 0 ∧ a.im = 0) := by
  rw [← Bool.not_eq_true, accIsZero, Bool.and_eq_true, beq_iff_eq, beq_iff_eq]

theorem powB_cap : powB 128 = ⟨2 ^ 64, 0⟩ := by
  rw [powB_group 16 0]
  norm_num [powB]

/-- Settles O31: the loop's invariant at each of its three exits. -/
theorem inverseOutcome : Obligations.InverseOutcome := by
  intro re im s
  have hr := invLoop_extracted re im
  refine ⟨_, _, _, _, _, _, exec_inv re im s, hr.idx_le, hr.digits_below, hr.input_eq, ?_⟩
  rcases invLoop_exits re im with ⟨hacc, hstatus⟩ | ⟨hnonzero, -, hcap, hstatus⟩ | ⟨hnonzero, hovf, hstatus⟩
  · refine .inl ⟨hstatus, ?_, ?_, hr.length_eq ?_⟩ <;> rw [hacc]
    rfl
  · exact .inr (.inl ⟨hstatus, (accIsZero_eq_false_iff _).1 hnonzero, hcap, powB_cap⟩)
  · obtain ⟨hdigit, hdiv⟩ := hr.overflow_digit hovf
    exact .inr (.inr ⟨hstatus, (accIsZero_eq_false_iff _).1 hnonzero, (hr.overflow_nonzero hovf).1, hdigit, hdiv⟩)

/-- On the value of a digit string the loop ends at its length, with that string and nothing left (R180). -/
theorem invLoop_of_value {e re im : Word} (h : gaussOf re im = value e) :
    invLoop re im = ⟨⟨0, 0, false⟩, e, bitlen e⟩ := by
  have hok := not_ivFails_of_representable ⟨e, h.symm⟩
  obtain ⟨hovf, hzero⟩ := (ivFails_eq_false_iff _).1 hok
  have hacc : (invLoop re im).acc = ⟨0, 0, false⟩ := Acc.eq_of_gauss ((accIsZero_iff _).1 hzero) hovf
  have hq : (invLoop re im).q = e := eq_of_value_eq ((value_invLoop_of_not_ivFails hok).trans h)
  have hi : (invLoop re im).i = bitlen e := hq ▸ (invLoop_extracted re im).length_eq hzero
  rw [← hacc, ← hi, ← hq]

/-- Settles O28: the loop divides out the string's digits and ends at its length. -/
theorem inverseOfValue : Obligations.InverseOfValue := by
  intro e re im s h
  simp [exec_inv, invLoop_of_value h]

/-- Settles O30: a forward answer holds `value(d)`, and INV gives the digit string of a value back. -/
theorem inverseOfForward : Obligations.InverseOfForward := by
  intro d i s t u hi ht hu
  obtain ⟨t', ht', hrsp⟩ := exec_forward hi s
  obtain rfl : t' = t := by simpa [ht] using ht'.symm
  obtain ⟨hre, him⟩ := store_value_toInt d
  have hvalue : gaussOf t'.rsp.re t'.rsp.im = value d := by
    rw [hrsp]
    exact Gauss.ext_parts hre him
  rw [inverseOfValue d _ _ t' hvalue] at hu
  cases hu
  rfl

section expansions
variable {z x y : Gauss} {d e : Word} {m n : Nat}

/-- An expansion into `m` digits and a rest is one into fewer digits and a longer rest. -/
theorem expansion_of_le (hnm : n ≤ m) (h : z = (digitSum e m).add (x.mul (powB m))) :
    ∃ y, z = (digitSum e n).add (Gauss.mul y (powB n)) := by
  induction m, hnm using Nat.le_induction generalizing x with
  | base => exact ⟨x, h⟩
  | succ m _ ih => exact ih (h.trans (digitSum_succ_add_rest e m x))

/-- Two expansions of one Gaussian integer have the same digits, as far as both go (R177). -/
theorem expansions_agree (hd : z = (digitSum d n).add (x.mul (powB n))) (he : z = (digitSum e m).add (y.mul (powB m)))
    {k : Nat} (hn : k < n) (hm : k < m) : d.getLsbD k = e.getLsbD k := by
  obtain ⟨x', hx⟩ := expansion_of_le (Nat.succ_le_of_lt hn) hd
  obtain ⟨y', hy⟩ := expansion_of_le (Nat.succ_le_of_lt hm) he
  exact (digits_and_rest_unique (hx.symm.trans hy)).1 k k.lt_succ_self

/-- Every Gaussian integer an accumulator holds is its parity and a multiple of b, also where the multiple does not fit
(R110, R171). -/
theorem exists_quotient (a : Acc) : ∃ x : Gauss, a.gauss = Gauss.add ⟨if accParity a then 1 else 0, 0⟩ x.mulB := by
  obtain ⟨h1, h2⟩ := parity_numerators_even a
  refine ⟨⟨(a.im.toInt - a.re.toInt + (if accParity a then 1 else 0)) / 2,
    (-a.re.toInt - a.im.toInt + (if accParity a then 1 else 0)) / 2⟩, Gauss.ext_parts ?_ ?_⟩ <;> simp <;> omega

/-- All the digits INV has extracted are the lowest of an expansion of the input, the last one of a detected overflow too
(R177). -/
theorem Extracted.expansion {r : Extraction} (hr : Extracted z r) :
    ∃ x, z = (digitSum r.q r.i).add (Gauss.mul x (powB r.i)) := by
  have hinput := hr.input_eq
  cases hovf : r.acc.ovf with
  | false =>
    rw [hovf] at hinput
    exact ⟨_, hinput⟩
  | true =>
    obtain ⟨x, hx⟩ := exists_quotient r.acc
    obtain ⟨hdigit, -⟩ := hr.overflow_digit hovf
    have hi : r.i - 1 + 1 = r.i := Nat.sub_add_cancel (hr.overflow_nonzero hovf).1
    refine ⟨x, ?_⟩
    rw [hovf, divisions, if_pos rfl, hx, ← hdigit, ← digitSum_succ_add_rest, hi] at hinput
    exact hinput

end expansions

/-- The 8-bit `IDX` has room for every index of INV (R33). -/
theorem invLoop_idx_toNat (re im : Word) : (BitVec.ofNat 8 (invLoop re im).i).toNat = (invLoop re im).i := by
  have hle := (invLoop_extracted re im).idx_le
  rw [BitVec.toNat_ofNat, Nat.mod_eq_of_lt (by omega)]

/-- An error status of INV means that the input has no 128-digit expansion (R177). -/
theorem not_representable_of_status_ne {re im : Word} (h : (inverseAnswer (invLoop re im)).status ≠ 0x00) :
    ¬ Representable (gaussOf re im) := by
  rintro ⟨e, he⟩
  simp [invLoop_of_value he.symm] at h

/-- Settles O32: the extracted digits and any other expansion are two expansions of one input. -/
theorem inverseDigitsAreTrue : Obligations.InverseDigitsAreTrue := by
  intro re im s t h
  rw [exec_inv] at h
  cases h
  obtain ⟨x, hx⟩ := (invLoop_extracted re im).expansion
  refine ⟨fun e rest m _ he k hm hidx => ?_, fun herr => not_representable_of_status_ne fun hok => herr ?_⟩
  · rw [invLoop_idx_toNat] at hidx
    exact expansions_agree hx he hidx hm
  · change statusErr (inverseAnswer (invLoop re im)).status = 0
    rw [hok]
    decide

theorem invLoop_smin_smax :
    invLoop (store smin) (store smax) = ⟨⟨store smin, store smax, true⟩, 0x1, 1⟩ := by decide

/-- Settles O33: only an input without an expansion ends in an error, and of the three statuses of INV the one with OVF has
ERR = 2. -/
theorem inverseOverflowTruthful : Obligations.InverseOverflowTruthful := by
  refine ⟨fun re im s t h hovf => ?_, fun s => ⟨_, exec_inv _ _ s, ?_⟩⟩
  · rw [exec_inv] at h
    cases h
    change statusOvf (inverseAnswer (invLoop re im)).status = true at hovf
    change _ ∧ statusErr (inverseAnswer (invLoop re im)).status = 2
    have hnone := not_representable_of_status_ne (re := re) (im := im)
    rcases invLoop_exits re im with ⟨-, hstatus⟩ | ⟨-, -, -, hstatus⟩ | ⟨-, -, hstatus⟩ <;> rw [hstatus] at hovf hnone ⊢
    · exact absurd hovf (by decide)
    · exact absurd hovf (by decide)
    · exact ⟨hnone (by decide), by decide⟩
  · rw [invLoop_smin_smax]
    exact ⟨show inverseAnswer _ = _ by decide, rfl⟩

end Sys2Proof.Machine
end

section
namespace Sys2Proof.Machine
open Finset

/-- The triangle inequality, for norms as squares: what bounds the lengths bounds the inner product (R181). -/
theorem norm_add_le {x y : Gauss} {a c N : Int} (ha : 0 ≤ a) (hc : 0 ≤ c) (hN : 0 ≤ N) (hx : x.norm ≤ N * a ^ 2)
    (hy : y.norm ≤ N * c ^ 2) : (x.add y).norm ≤ N * (a + c) ^ 2 := by
  have hlagrange : (x.re * y.re + x.im * y.im) ^ 2 = x.norm * y.norm - (x.re * y.im - x.im * y.re) ^ 2 := by
    simp only [Gauss.norm]
    ring
  have hnonneg : 0 ≤ y.norm := add_nonneg (mul_self_nonneg _) (mul_self_nonneg _)
  have hinner : x.re * y.re + x.im * y.im ≤ N * (a * c) := by
    refine (abs_le_of_sq_le_sq' ?_ (by positivity)).2
    calc (x.re * y.re + x.im * y.im) ^ 2 ≤ x.norm * y.norm := by
          rw [hlagrange]
          exact sub_le_self _ (sq_nonneg _)
      _ ≤ (N * a ^ 2) * (N * c ^ 2) := mul_le_mul hx hy hnonneg (by positivity)
      _ = (N * (a * c)) ^ 2 := by ring
  calc (x.add y).norm = x.norm + y.norm + 2 * (x.re * y.re + x.im * y.im) := by
        simp only [Gauss.norm, Gauss.add_re, Gauss.add_im]
        ring
    _ ≤ N * (a + c) ^ 2 := by linarith

/-- No eight digits have a value of norm above 260, which `(-8, -14)` reaches (R181). -/
theorem group_norm_le (bit : Fin 8 → Bool) :
    Gauss.norm ⟨∑ j : Fin 8, (if bit j then (powB j).re else 0), ∑ j : Fin 8, (if bit j then (powB j).im else 0)⟩ ≤
      260 := by
  simp only [Fin.sum_univ_eight]
  generalize bit 0 = b0, bit 1 = b1, bit 2 = b2, bit 3 = b3, bit 4 = b4, bit 5 = b5, bit 6 = b6, bit 7 = b7
  revert b0 b1 b2 b3 b4 b5 b6 b7
  decide

theorem norm_scale (c : Int) (x : Gauss) : Gauss.norm ⟨c * x.re, c * x.im⟩ = c ^ 2 * x.norm := by
  simp only [Gauss.norm]
  ring

/-- The lowest `n` groups have a value of norm at most `260·c²` with `c = (16^n - 1)/15`, the sum of the group scales
(R181). -/
theorem digitSum_norm_le (d : Word) (n : Nat) {c : Int} (hc : 15 * c = 16 ^ n - 1) :
    (digitSum d (8 * n)).norm ≤ 260 * c ^ 2 := by
  induction n generalizing c with
  | zero =>
    have hc0 : c = 0 := by simpa using hc
    rw [hc0, Nat.mul_zero, digitSum_zero]
    decide
  | succ n ih =>
    have hscale : (0 : Int) < 16 ^ n := by positivity
    have hlow := ih (c := c - 16 ^ n) (by rw [pow_succ] at hc; linarith)
    have hgroup := group_norm_le (groupBit d n)
    rw [digitSum_group, show c = c - 16 ^ n + 16 ^ n by ring]
    refine norm_add_le (by rw [pow_succ] at hc; linarith) hscale.le (by norm_num) hlow ?_
    calc Gauss.norm ⟨16 ^ n * _, 16 ^ n * _⟩ = (16 ^ n) ^ 2 * _ := norm_scale (16 ^ n) ⟨_, _⟩
      _ ≤ (16 ^ n) ^ 2 * 260 := mul_le_mul_of_nonneg_left hgroup (sq_nonneg _)
      _ = 260 * (16 ^ n) ^ 2 := mul_comm _ _

theorem invLoop_cap_example :
    invLoop (store (2 ^ 62)) 0 = ⟨⟨1, 0, false⟩, 0xD0000000000000000000000000000000, 128⟩ := by decide +kernel

/-- The component and norm bounds of representable pairs (R111, R181). -/
theorem value_bounds (e : Word) :
    -13 * boundK ≤ (value e).re ∧ (value e).re ≤ 7 * boundK ∧ -14 * boundK ≤ (value e).im ∧
      (value e).im ≤ 11 * boundK ∧ (value e).norm ≤ 260 * boundK ^ 2 := by
  have hnorm : (value e).norm ≤ 260 * boundK ^ 2 := digitSum_norm_le e 16 (by decide)
  obtain ⟨⟨hre, hre'⟩, him, him'⟩ := sum_powB_bounds (S := onePositions e 128) fun _ => lt_of_mem_onePositions
  rw [value, digitSum_eq_sum] at hnorm ⊢
  exact ⟨hre, hre', him, him', hnorm⟩

/-- Settles O34: the bounds hold of every value, so a pair outside them is none; and the loop on `(2^62, 0)` runs to the
cap. -/
theorem representableSizeBounds : Obligations.RepresentableSizeBounds := by
  refine ⟨value_bounds, fun re im s hout => ?_, fun s => ⟨_, exec_inv _ _ s, ?_⟩⟩
  · obtain ⟨t, ht, ⟨q, hq, -⟩ | ⟨-, herr⟩⟩ := exec_inv_cases re im s
    · have hbounds := value_bounds q
      rw [hq] at hbounds
      exact absurd hbounds hout
    · exact ⟨t, ht, herr⟩
  · rw [invLoop_cap_example]
    exact show inverseAnswer _ = _ by decide

end Sys2Proof.Machine
end

section
namespace Sys2Proof.Machine

section step
variable {s : State}

theorem step_of_reset (hrst : s.ports.rst = true) : step s = .next (resetEvent s) := by
  rw [step, if_pos hrst]

theorem step_of_running (hrst : s.ports.rst = false) (hrun : s.phase = .run) : step s = .next (seqStep s) := by
  simp [step, hrst, hrun]

theorem step_of_no_request (hs : s.Ready) (hv : s.ports.reqValid = false) : step s = .next s := by
  obtain ⟨hidle, hrst⟩ := hs
  simp [step, hidle, hrst, hv]

/-- A ready machine takes the whole of a presented command (R12). -/
theorem step_of_decoded {i : Instr} (hs : s.Ready) (hv : s.ports.reqValid = true) (hd : decode (sampleRequest s) = .ok i) :
    step s = exec i s := by
  obtain ⟨hidle, hrst⟩ := hs
  simp [step, hidle, hrst, hv, hd]

/-- A ready machine ends a presented undefined command word in InvalidVariant (R205). -/
theorem step_of_bad (hs : s.Ready) (hv : s.ports.reqValid = true) (hbad : decodeOp s.ports.reqCmd = .bad) :
    step s = execInvalidVariant s.ports.reqA s.ports.reqB s := by
  obtain ⟨hidle, hrst⟩ := hs
  have hd := decode_of_bad (r := sampleRequest s) hbad
  simp [step, hidle, hrst, hv, hd]

end step

/-- Settles O42: the two placings of a request, on the ports by the host and by `withFetchWord`, are sampled alike. -/
theorem stepRunsDecoded : Obligations.StepRunsDecoded := by
  refine ⟨fun s i hs hv hd => step_of_decoded hs hv hd, fun s nbits w i h => step_of_decoded ⟨rfl, rfl⟩ rfl ?_⟩
  rw [withFetchWord_request]
  rw [decodeTableWord] at h
  cases hd : decode (requestOfTableWord nbits w) with
  | error e => simp [hd, Except.toOption] at h
  | ok j => simpa [hd, Except.toOption] using h

/-- Settles O43, a branch of the step for each. -/
theorem stepWithoutCommand : Obligations.StepWithoutCommand :=
  ⟨fun _ => step_of_reset, fun _ => step_of_running, fun _ hrst hidle => step_of_no_request ⟨hidle, hrst⟩⟩

/-- Settles O44: in each of the step's five cases a next state is answered. -/
theorem stepAlwaysAnswers : Obligations.StepAlwaysAnswers := by
  intro s
  rcases step_cases s with ⟨-, h⟩ | ⟨-, -, h⟩ | ⟨-, -, -, i, -, h⟩ | ⟨-, -, -, -, h⟩ | ⟨-, -, -, h⟩ <;> rw [h]
  case inr.inr.inl => exact exec_next i s
  all_goals exact ⟨_, rfl⟩

/-- Settles O50: the values of R43, which the reset event writes whatever the state. -/
theorem resetValues : Obligations.ResetValues :=
  ⟨rfl, rfl, rfl, rfl, fun _ => ⟨rfl, rfl, rfl, rfl, rfl⟩⟩

/-- Every register after a request with an undefined command word (R205). -/
theorem execInvalidVariant_eq (a b : Word) (s : State) :
    execInvalidVariant a b s =
      .next
        { s with
          rsp := ⟨true, 0x01, 0, 0, 0, 0⟩
          phase := .idle
          op := .bad
          idx := 0
          errw := 1
          dreg := a
          scale := 1
          pwrRe := -1
          pwrIm := 1
          qreg := 0
          acc := ⟨0, 0, false⟩ } := by
  simp [execInvalidVariant, raiseError, complete, accept, accClear]

/-- Settles O35: acceptance has cleared the accumulator and `QREG`, which completion shows under the error. -/
theorem invalidVariantResponse : Obligations.InvalidVariantResponse := by
  intro s hs hv hbad
  rw [step_of_bad hs hv hbad, execInvalidVariant_eq]

theorem forwardAnswer_statusErr (d : Word) : statusErr (forwardAnswer d).status = 0 :=
  show statusErr 0x00 = 0 by decide

theorem forwardAnswer_statusOvf (d : Word) : statusOvf (forwardAnswer d).status = false :=
  show statusOvf 0x00 = false by decide

/-- A command is INV or one of the forward commands on its operand. -/
theorem instr_cases (i : Instr) :
    (∃ re im, i = .inv re im) ∨ ∃ d, i = .fwdScalar d ∨ i = .fwdBatch d ∨ i = .fwdRecur d := by
  cases i with
  | fwdScalar d => exact .inr ⟨d, .inl rfl⟩
  | fwdBatch d => exact .inr ⟨d, .inr (.inl rfl)⟩
  | fwdRecur d => exact .inr ⟨d, .inr (.inr rfl)⟩
  | inv re im => exact .inl ⟨re, im, rfl⟩

/-- Settles O36: a forward command answers with STATUS 0x00 and INV with the status of its exit. -/
theorem statusAfterCommand : Obligations.StatusAfterCommand := by
  intro i s
  rcases instr_cases i with ⟨re, im, rfl⟩ | ⟨d, hi⟩
  · refine ⟨_, exec_inv re im s, rfl, fun h => absurd ⟨re, im, rfl⟩ h, fun _ => ?_, ?_⟩ <;>
      rcases invLoop_exits re im with ⟨-, hstatus⟩ | ⟨-, -, -, hstatus⟩ | ⟨-, -, hstatus⟩ <;> rw [hstatus] <;> decide
  · obtain ⟨t, ht, hrsp⟩ := exec_forward hi s
    refine ⟨t, ht, by rw [hrsp]; rfl, fun _ => by rw [hrsp]; rfl, ?_, fun h => ?_⟩
    · rintro ⟨re, im, rfl⟩
      simp at hi
    · rw [hrsp, forwardAnswer_statusOvf] at h
      cases h

/-- Settles O51: in the answered state of each command, these registers are as acceptance wrote them. -/
theorem commandFrames : Obligations.CommandFrames := by
  intro i s t h
  cases i with
  | fwdScalar d =>
    rw [(forwardScalarResult d s).1] at h
    cases h
    exact ⟨rfl, rfl, fun _ => ⟨rfl, rfl, rfl⟩, fun hne => absurd ⟨d, rfl⟩ hne, fun _ => ⟨rfl, rfl⟩,
      show Op.fs = decodeOp 0x00 by decide⟩
  | fwdBatch d =>
    rw [forwardBatchResult d s] at h
    cases h
    exact ⟨rfl, rfl, fun _ => ⟨rfl, rfl, rfl⟩, fun _ => rfl, fun _ => ⟨rfl, rfl⟩,
      show Op.fb = decodeOp 0x01 by decide⟩
  | fwdRecur d =>
    rw [(forwardRecurResult d s).1] at h
    cases h
    exact ⟨rfl, rfl, fun hne => absurd ⟨d, rfl⟩ hne, fun _ => rfl, fun _ => ⟨rfl, rfl⟩,
      show Op.fr = decodeOp 0x02 by decide⟩
  | inv re im =>
    rw [exec_inv] at h
    cases h
    exact ⟨rfl, rfl, fun _ => ⟨rfl, rfl, rfl⟩, fun _ => rfl, fun hne => absurd ⟨re, im, rfl⟩ hne,
      show Op.iv = decodeOp 0x80 by decide⟩

end Sys2Proof.Machine
end

section
namespace Sys2Proof.Machine

/-- What the host reads of a forward command: the value of its operand (R87). -/
theorem commandResult_forward {d : Word} {i : Instr} (hi : i = .fwdScalar d ∨ i = .fwdBatch d ∨ i = .fwdRecur d) :
    commandResult (commandWord i) (forwardAnswer d) = .ok (.gaussian (value d)) := by
  obtain ⟨hre, him⟩ := store_value_toInt d
  have hvalue : gaussOf (forwardAnswer d).re (forwardAnswer d).im = value d := Gauss.ext_parts hre him
  have hdir : cmdDir (commandWord i) = false := by
    rcases hi with rfl | rfl | rfl <;> simp
  rw [commandResult_success _ _ (forwardAnswer_statusErr d), resultProper, hdir, hvalue]
  rfl

/-- What the host reads of a failing INV: the registers of the response under the error (R211). -/
theorem commandResult_inverse_failure {cmd : Byte} {r : Extraction} (h : ivFails r.acc = true) :
    commandResult cmd (inverseAnswer r) =
      .error ⟨some .representationOverflow, r.acc.ovf, r.acc.gauss, r.q, BitVec.ofNat 8 (bitlen r.q)⟩ := by
  have herr : statusErr (inverseAnswer r).status = errorCode .representationOverflow := by
    simp [inverseAnswer, inverseError, h]
  rw [commandResult_failure _ _ (by rw [herr]; decide), herr, errorOf_errorCode]
  simp [inverseAnswer, Acc.gauss]

/-- INV of an input without expansion, as the host reads it: the cap and a detected overflow told apart (R176, U4). -/
theorem hostReads_inverse_failure {re im : Word} (hnone : ¬ Representable (gaussOf re im)) (s : State) :
    ∃ t f, exec (.inv re im) s = .next t ∧ hostRead t = .ok t.rsp ∧
      commandResult (commandWord (.inv re im)) t.rsp = .error f ∧
      f.error = some .representationOverflow ∧ f.remainder ≠ ⟨0, 0⟩ ∧ f.len = BitVec.ofNat 8 (bitlen f.digits) ∧
      (f.ovf = false → t.rsp.status = 0x02 ∧
        gaussOf re im = (digitSum f.digits 128).add (f.remainder.mul (powB 128))) ∧
      (f.ovf = true → t.rsp.status = 0x06 ∧
        ∃ m, m < 128 ∧ (∀ k, m < k → f.digits.getLsbD k = false) ∧
          gaussOf re im = (digitSum f.digits m).add (f.remainder.mul (powB m))) := by
  have hr := invLoop_extracted re im
  have hfails : ivFails (invLoop re im).acc = true := by
    by_contra hok
    exact hnone ⟨_, value_invLoop_of_not_ivFails (Bool.eq_false_iff.2 hok)⟩
  have hinput := hr.input_eq
  refine ⟨_, _, exec_inv re im s, rfl, commandResult_inverse_failure hfails, rfl, ?_, rfl,
    fun (hflag : (invLoop re im).acc.ovf = false) => ?_, fun (hflag : (invLoop re im).acc.ovf = true) => ?_⟩
  · intro hzero
    rw [ivFails, (accIsZero_iff _).2 hzero, Bool.not_true, Bool.or_false] at hfails
    have hnonzero := (hr.overflow_nonzero hfails).2
    rw [(accIsZero_iff _).2 hzero] at hnonzero
    cases hnonzero
  · rcases invLoop_exits re im with ⟨hacc, -⟩ | ⟨-, -, hcap, hstatus⟩ | ⟨-, hovf, -⟩
    · rw [hacc] at hfails
      cases hfails
    · rw [hflag, hcap] at hinput
      exact ⟨hstatus, hinput⟩
    · cases hflag.symm.trans hovf
  · obtain ⟨hpos, -⟩ := hr.overflow_nonzero hflag
    have hle := hr.idx_le
    rw [hflag] at hinput
    rcases invLoop_exits re im with ⟨hacc, -⟩ | ⟨-, hovf, -⟩ | ⟨-, -, hstatus⟩
    · rw [hacc] at hflag
      cases hflag
    · cases hflag.symm.trans hovf
    · exact ⟨hstatus, (invLoop re im).i - 1, by omega, fun k hk => hr.digits_below k (by omega), hinput⟩

/-- What the host reads after an undefined command word: the error class and zeros (R205, R211). -/
theorem commandResult_invalid (cmd : Byte) :
    commandResult cmd ⟨true, 0x01, 0, 0, 0, 0⟩ = .error ⟨some .invalidVariant, false, ⟨0, 0⟩, 0, 0⟩ := by
  rw [commandResult_failure _ _ (show statusErr 0x01 ≠ 0 by decide)]
  decide

/-- Settles O38: the host's reading of the responses of O35, O31 and the forward commands. -/
theorem hostReadsResult : Obligations.HostReadsResult := by
  refine ⟨fun s => ⟨hostRead_valid s, hostRead_invalid s⟩, fun cmd r => ⟨⟨?_, fun h => ?_⟩, commandResult_failure cmd r⟩,
    fun d i s hi => ?_, fun re im s e he => ?_, fun re im s hnone => hostReads_inverse_failure hnone s,
    fun s hs hv hbad => ?_⟩
  · rintro ⟨x, hx⟩
    by_contra h
    rw [commandResult_failure _ _ h] at hx
    cases hx
  · exact ⟨_, commandResult_success cmd r h⟩
  · obtain ⟨t, ht, hrsp⟩ := exec_forward hi s
    refine ⟨t, ht, hostRead_valid t (by rw [hrsp]; rfl), ?_⟩
    rw [hrsp]
    exact commandResult_forward hi
  · exact ⟨_, inverseOfValue e re im s he.symm, rfl, by simp [commandResult_success, statusErr, resultProper]⟩
  · exact ⟨_, invalidVariantResponse s hs hv hbad, rfl, rfl, commandResult_invalid _⟩

end Sys2Proof.Machine
end

section
namespace Sys2Proof.Machine

section tick
variable {s : State}

theorem tick_of_reset (hrst : s.ports.rst = true) : tick s = resetEvent s := by
  rw [tick, if_pos hrst]

theorem tick_of_running (hrst : s.ports.rst = false) (hrun : s.phase = .run) : tick s = seqStep s := by
  simp [tick, hrst, hrun]

end tick

theorem ivFinish_completes (s : State) : (ivFinish s).phase = .idle ∧ (ivFinish s).rsp.valid = true := by
  rw [ivFinish]
  split <;> exact ⟨rfl, rfl⟩

/-- A sequencer step leaves the command running, and then the response registers as they are, or completes it (R35, R37). -/
theorem seqStep_phase_cases (s : State) :
    ((seqStep s).phase = s.phase ∧ (seqStep s).rsp = s.rsp) ∨
      ((seqStep s).phase = .idle ∧ (seqStep s).rsp.valid = true) := by
  rcases seqStep_cases s with ⟨-, h⟩ | ⟨-, -, h⟩ | ⟨-, -, h⟩ | ⟨-, -, h⟩ | ⟨-, -, -, h⟩ | ⟨-, -, h⟩ | ⟨-, -, h⟩ | ⟨-, h⟩ <;>
    rw [h]
  · exact .inr ⟨rfl, rfl⟩
  · exact .inl ⟨rfl, rfl⟩
  · exact .inl ⟨rfl, rfl⟩
  · exact .inl ⟨rfl, rfl⟩
  · exact .inl ⟨rfl, rfl⟩
  · exact .inl ⟨rfl, rfl⟩
  · exact .inr (ivFinish_completes s)
  · exact .inr ⟨rfl, rfl⟩

theorem ivFinish_with_ports (s : State) (p : Ports) :
    ivFinish { s with ports := p } = { ivFinish s with ports := p } := by
  rw [ivFinish, ivFinish]
  split <;> rfl

section seqStep
variable {s : State}

theorem seqStep_bad (hop : s.op = .bad) : seqStep s = raiseError .invalidVariant s := by
  rw [seqStep, hop]

theorem seqStep_scalar_pass (hop : s.op = .fs) (hlt : s.idx.toNat < 16) : seqStep s = fsStep s := by
  simp only [seqStep, hop, if_pos hlt]

theorem seqStep_scalar_done (hop : s.op = .fs) (hge : 16 ≤ s.idx.toNat) : seqStep s = complete s := by
  simp only [seqStep, hop, if_neg hge.not_gt]

theorem seqStep_batch_pass (hop : s.op = .fb) (hlt : s.idx.toNat < 16) : seqStep s = fbStep s := by
  simp only [seqStep, hop, if_pos hlt]

theorem seqStep_batch_done (hop : s.op = .fb) (hge : 16 ≤ s.idx.toNat) : seqStep s = complete s := by
  simp only [seqStep, hop, if_neg hge.not_gt]

theorem seqStep_recur_base (hop : s.op = .fr) (hidx : s.idx = 0) : seqStep s = frBaseStep s := by
  simp only [seqStep, hop, if_pos hidx]

theorem seqStep_recur_iteration (hop : s.op = .fr) (hidx : s.idx ≠ 0) (hdreg : s.dreg ≠ 0) : seqStep s = frStep s := by
  simp only [seqStep, hop, if_neg hidx, if_pos hdreg]

theorem seqStep_recur_done (hop : s.op = .fr) (hidx : s.idx ≠ 0) (hdreg : s.dreg = 0) : seqStep s = complete s := by
  simp only [seqStep, hop, if_neg hidx, hdreg, ne_eq, not_true, if_false]

theorem seqStep_inverse_iteration (hop : s.op = .iv) (hgo : ivContinues (extractionOf s) = true) :
    seqStep s = ivStep s := by
  simp only [seqStep, hop, if_pos hgo]

theorem seqStep_inverse_done (hop : s.op = .iv) (hstop : ivContinues (extractionOf s) = false) :
    seqStep s = ivFinish s := by
  simp [seqStep, hop, hstop]

end seqStep

/-- A sequencer step reads no port (R35, R236). -/
theorem seqStep_with_ports (s : State) (p : Ports) :
    seqStep { s with ports := p } = { seqStep s with ports := p } := by
  rcases seqStep_cases s with ⟨hop, h⟩ | ⟨hop, hlt, h⟩ | ⟨hop, hlt, h⟩ | ⟨hop, hidx, h⟩ | ⟨hop, hidx, hdreg, h⟩ |
    ⟨hop, hgo, h⟩ | ⟨hop, hstop, h⟩ | ⟨⟨hop | hop, hge⟩ | ⟨hop, hidx, hdreg⟩, h⟩ <;> rw [h]
  · exact seqStep_bad hop
  · exact seqStep_scalar_pass hop hlt
  · exact seqStep_batch_pass hop hlt
  · exact seqStep_recur_base hop hidx
  · exact seqStep_recur_iteration hop hidx hdreg
  · exact seqStep_inverse_iteration hop hgo
  · have hother := seqStep_inverse_done (s := { s with ports := p }) hop hstop
    rw [hother, ivFinish_with_ports]
  · exact seqStep_scalar_done hop hge
  · exact seqStep_batch_done hop hge
  · exact seqStep_recur_done hop hidx hdreg

/-- Settles O41: the transition's cases, and in the running one the sequencer step, which reads no port. -/
theorem phaseChanges : Obligations.PhaseChanges := by
  refine ⟨fun s hrst => ?_, fun s hrst hidle => ⟨?_, tick_of_ready_no_request ⟨hidle, hrst⟩⟩,
    fun s hrst hrun hdone => ?_, fun s hrun => ?_, fun s p hrun hp hrst => ?_⟩
  · rw [tick_of_reset hrst]
    rfl
  · cases hv : s.ports.reqValid with
    | false => simp [tick_of_ready_no_request ⟨hidle, hrst⟩ hv, hidle]
    | true => simp [tick_of_ready_request ⟨hidle, hrst⟩ hv, acceptPorts]
  · rw [tick_of_running hrst hrun] at hdone ⊢
    rcases seqStep_phase_cases s with ⟨hphase, -⟩ | ⟨-, hvalid⟩
    · rw [hphase, hrun] at hdone
      cases hdone
    · exact hvalid
  · simp [State.reqReady, hrun]
  · have hother : tick { s with ports := p } = seqStep { s with ports := p } := tick_of_running (hp.trans hrst) hrun
    rw [hother, seqStep_with_ports, tick_of_running hrst hrun]

end Sys2Proof.Machine
end

section
namespace Sys2Proof.Machine

section invariant
variable {s : State}

/-- A success leaves no digits or no remainder (R87). -/
theorem responseOk_success {re im q : Word} (h : q = 0 ∨ (re = 0 ∧ im = 0)) :
    ResponseOk ⟨true, 0#8, re, im, q, BitVec.ofNat 8 (bitlen q)⟩ where
  status_legal := .inl rfl
  len_eq _ := rfl
  success _ _ := h
  invalid _ hstatus := absurd hstatus (show 0#8 ≠ 0x01 by decide)
  failed _ hstatus := absurd hstatus (show ¬(0#8 = 0x02 ∨ 0#8 = 0x06) by decide)

/-- InvalidVariant leaves zeros (R205). -/
theorem responseOk_invalidVariant : ResponseOk ⟨true, 1#8, 0, 0, 0, BitVec.ofNat 8 (bitlen 0)⟩ where
  status_legal := .inr (.inl rfl)
  len_eq _ := rfl
  success _ _ := .inl rfl
  invalid _ _ := ⟨rfl, rfl, rfl⟩
  failed _ hstatus := absurd hstatus (by decide)

/-- RepresentationOverflow leaves a non-zero remainder (R176). -/
theorem responseOk_overflow {re im q : Word} (h : ¬(re = 0 ∧ im = 0)) (ovf : Bool) :
    ResponseOk ⟨true, statusWord ovf 2#2, re, im, q, BitVec.ofNat 8 (bitlen q)⟩ where
  status_legal := show LegalStatus (statusWord ovf 2#2) by cases ovf <;> decide
  len_eq _ := rfl
  success _ hstatus := absurd hstatus (show statusWord ovf 2#2 ≠ 0x00 by cases ovf <;> decide)
  invalid _ hstatus := absurd hstatus (show statusWord ovf 2#2 ≠ 0x01 by cases ovf <;> decide)
  failed _ _ := h

/-- Registers that hold no valid response need only a legal status. -/
theorem responseOk_of_invalid {r : Response} (hvalid : r.valid = false) (hstatus : LegalStatus r.status) :
    ResponseOk r := by
  refine ⟨hstatus, fun h => ?_, fun h => ?_, fun h => ?_, fun h => ?_⟩ <;> rw [hvalid] at h <;> cases h

/-- An idle machine meets the invariant as far as its response does. -/
theorem inv_of_idle (hidle : s.phase = .idle) (hrsp : ResponseOk s.rsp) : s.Inv :=
  ⟨hrsp, fun hrun => by rw [hidle] at hrun; cases hrun⟩

/-- A forward command completes with a response that has its form (R136, R149, R167). -/
theorem ForwardQuiet.complete_inv (hs : ForwardQuiet s) : (complete s).Inv := by
  rw [complete_of_no_error hs.qreg_zero hs.errw_zero hs.no_overflow]
  exact inv_of_idle rfl (responseOk_success (.inl rfl))

/-- An undefined command word completes with InvalidVariant and zeros (R205). -/
theorem InvalidRuns.raiseError_inv (hs : InvalidRuns s) : (raiseError .invalidVariant s).Inv := by
  obtain ⟨hacc, hq⟩ := hs
  refine inv_of_idle rfl ?_
  rw [raiseError_rsp, hacc, hq]
  exact responseOk_invalidVariant

/-- The index of a loop below its end does not wrap when it advances (R33). -/
theorem idx_add_one_toNat (hlt : s.idx.toNat < 128) : (s.idx + 1).toNat = s.idx.toNat + 1 := by
  rw [BitVec.toNat_add, show (1 : Byte).toNat = 1 from rfl, Nat.mod_eq_of_lt (by omega)]

/-- The register form of the group scale: `SCALE = 1 << 4g` is `16^g`, and a pass moves it on (R123). -/
theorem shiftLeft_toNat_eq_scale {g : Nat} (hg : g < 16) : ((1 : Word) <<< (4 * g)).toNat = 16 ^ g := by
  have hlt : 2 ^ (4 * g) < 2 ^ 128 := Nat.pow_lt_pow_right (by norm_num) (by omega)
  rw [BitVec.toNat_shiftLeft, Nat.shiftLeft_eq, show (1 : Word).toNat = 1 from rfl, one_mul, Nat.mod_eq_of_lt hlt,
    pow_mul]
  norm_num

theorem nextScale_shiftLeft (g : Nat) : nextScale ((1 : Word) <<< (4 * g)) = (1 : Word) <<< (4 * (g + 1)) := by
  have h16 : (16 : Word) = BitVec.twoPow 128 4 := by decide
  rw [nextScale, h16, BitVec.mul_comm, ← BitVec.shiftLeft_eq_mul_twoPow, ← BitVec.shiftLeft_add, Nat.mul_succ]

/-- A pass of FWD.SCALAR keeps its loop invariant (R132). -/
theorem ScalarRuns.fsStep (hs : ScalarRuns s) (hlt : s.idx.toNat < 16) : ScalarRuns (fsStep s) := by
  have hidx : (Machine.fsStep s).idx.toNat = s.idx.toNat + 1 := idx_add_one_toNat (by omega)
  have hacc : HoldsDigits s.dreg (8 * s.idx.toNat) s.acc := ⟨hs.acc_eq, hs.no_overflow⟩
  have hnext := hacc.fsGroupPass (s := s.scale) hlt (by rw [hs.scale_eq, shiftLeft_toNat_eq_scale hlt])
  refine ⟨⟨hs.errw_zero, hs.qreg_zero, hnext.no_overflow⟩, by omega, ?_, ?_⟩ <;> rw [hidx]
  · rw [← nextScale_shiftLeft, ← hs.scale_eq]
    rfl
  · exact hnext.gauss_eq

/-- A pass of FWD.BATCH keeps its loop invariant (R143). -/
theorem BatchRuns.fbStep (hs : BatchRuns s) (hlt : s.idx.toNat < 16) : BatchRuns (fbStep s) := by
  have hidx : (Machine.fbStep s).idx.toNat = s.idx.toNat + 1 := idx_add_one_toNat (by omega)
  have hacc : HoldsDigits s.dreg (8 * s.idx.toNat) s.acc := ⟨hs.acc_eq, hs.no_overflow⟩
  have hnext := hacc.fbGroupPass hlt
  refine ⟨⟨hs.errw_zero, hs.qreg_zero, hnext.no_overflow⟩, by omega, ?_⟩
  rw [hidx]
  exact hnext.gauss_eq

/-- The loop invariant of FWD.RECUR in the registers is that of the loop, for some operand (R163). -/
theorem RecurLoops.recurrenceInv (hs : RecurLoops s) (hovf : s.acc.ovf = false) :
    ∃ d, RecurrenceInv d (recurrenceOf s) := by
  obtain ⟨hge, -, hpwr, d, hrem, hacc⟩ := hs
  exact ⟨d, hge, hpwr, hrem, hacc, hovf⟩

theorem recurRuns_of_recurrenceInv {d : Word} (herr : s.errw = 0) (hq : s.qreg = 0)
    (hs : RecurrenceInv d (recurrenceOf s)) (hle : s.idx.toNat ≤ 128) : RecurRuns s :=
  ⟨⟨herr, hq, hs.holds.no_overflow⟩, .inr ⟨hs.two_le, hle, hs.power_eq, d, hs.rem_eq, hs.holds.gauss_eq⟩⟩

/-- After the base cases the registers hold what the loop starts from (R162). -/
theorem recurrenceOf_frBaseStep (hs : RecurStarts s) : recurrenceOf (frBaseStep s) = frStart s.dreg := by
  obtain ⟨-, hre, him, hacc⟩ := hs
  simp [recurrenceOf, frBaseStep, frStart, hre, him, hacc]

/-- An iteration on the registers is one on the loop's values (R163). -/
theorem recurrenceOf_frStep (hlt : s.idx.toNat < 128) : recurrenceOf (frStep s) = frIteration (recurrenceOf s) := by
  have hidx : (frStep s).idx.toNat = s.idx.toNat + 1 := idx_add_one_toNat hlt
  rw [recurrenceOf, hidx]
  rfl

/-- The base cases of FWD.RECUR lead into its loop invariant (R162). -/
theorem RecurRuns.frBaseStep (hs : RecurRuns s) (hidx : s.idx = 0) : RecurRuns (frBaseStep s) := by
  rcases hs.loop with hstart | hloop
  · refine recurRuns_of_recurrenceInv (d := s.dreg) hs.errw_zero hs.qreg_zero ?_ (show 2 ≤ 128 by norm_num)
    rw [recurrenceOf_frBaseStep hstart]
    exact frStart_inv s.dreg
  · have hge := hloop.idx_ge
    rw [hidx] at hge
    exact absurd hge (by decide)

/-- An iteration of FWD.RECUR keeps its loop invariant: where digits remain the position is below 128 (R163, R164). -/
theorem RecurRuns.frStep (hs : RecurRuns s) (hidx : s.idx ≠ 0) (hdreg : s.dreg ≠ 0) : RecurRuns (frStep s) := by
  rcases hs.loop with hstart | hloop
  · exact absurd hstart.idx_eq hidx
  · obtain ⟨d, hd⟩ := hloop.recurrenceInv hs.no_overflow
    have hmore : ¬ bitlen d ≤ s.idx.toNat := by
      rw [← ushiftRight_eq_zero_iff, ← show s.dreg = d >>> s.idx.toNat from hd.rem_eq]
      exact hdreg
    have hlt : s.idx.toNat < 128 := (not_le.1 hmore).trans_le (bitlen_le d)
    have hnext := hd.frIteration hlt
    rw [← recurrenceOf_frStep hlt] at hnext
    refine recurRuns_of_recurrenceInv hs.errw_zero hs.qreg_zero hnext ?_
    rw [show (Machine.frStep s).idx.toNat = s.idx.toNat + 1 from idx_add_one_toNat hlt]
    exact hlt

/-- The loop invariant of INV in the registers is that of the loop, for the input's real part in `DREG` and some
imaginary part (R179). -/
theorem inverseRuns_iff : InverseRuns s ↔ s.errw = 0 ∧ ∃ im, Divided (gaussOf s.dreg im) (extractionOf s) := by
  constructor
  · rintro ⟨herr, hle, hbelow, hovf, im, hinput⟩
    exact ⟨herr, im, hle, hbelow, hovf, hinput⟩
  · rintro ⟨herr, im, hle, hbelow, hovf, hinput⟩
    exact ⟨herr, hle, hbelow, hovf, im, hinput⟩

/-- An iteration on the registers is one on the loop's values (R172). -/
theorem extractionOf_ivStep (hlt : s.idx.toNat < 128) : extractionOf (ivStep s) = ivIteration (extractionOf s) := by
  have hidx : (ivStep s).idx.toNat = s.idx.toNat + 1 := idx_add_one_toNat hlt
  rw [extractionOf, hidx]
  rfl

/-- An iteration of INV keeps its loop invariant (R179). -/
theorem InverseRuns.ivStep (hs : InverseRuns s) (hgo : ivContinues (extractionOf s) = true) : InverseRuns (ivStep s) := by
  obtain ⟨herr, im, hd⟩ := inverseRuns_iff.1 hs
  have hnext := hd.iteration hgo
  obtain ⟨hlt, -, -⟩ := (ivContinues_iff _).1 hgo
  rw [← extractionOf_ivStep hlt] at hnext
  exact inverseRuns_iff.2 ⟨herr, im, hnext⟩

/-- INV completes with a response that has its form: an error status leaves a non-zero remainder (R174, R176). -/
theorem InverseRuns.ivFinish_inv (hs : InverseRuns s) : (ivFinish s).Inv := by
  have hovf := hs.overflow_nonzero
  rw [ivFinish_eq_complete hs.errw_zero]
  refine inv_of_idle rfl ?_
  change ResponseOk ⟨true, statusWord s.acc.ovf (inverseError s.acc), s.acc.re, s.acc.im, s.qreg, _⟩
  cases hzero : accIsZero s.acc with
  | true =>
    have hno : s.acc.ovf = false := by
      by_contra h
      rw [(hovf (by simpa using h)).2] at hzero
      cases hzero
    have hacc : s.acc = ⟨0#128, 0#128, false⟩ := Acc.eq_of_gauss ((accIsZero_iff _).1 hzero) hno
    rw [hacc, inverseError_success, statusWord_none]
    exact responseOk_success (.inr ⟨rfl, rfl⟩)
  | false =>
    have herr : inverseError s.acc = 2#2 := by simp [inverseError, ivFails, hzero]
    rw [herr]
    exact responseOk_overflow ((accIsZero_eq_false_iff _).1 hzero) s.acc.ovf

/-- Acceptance establishes the loop invariant of the command (R36). -/
theorem accept_commandRuns (op : Op) (a b : Word) (s : State) : CommandRuns (accept op a b s) := by
  cases op with
  | fs => exact ⟨⟨rfl, rfl, rfl⟩, Nat.zero_le 16, by simp, rfl⟩
  | fb => exact ⟨⟨rfl, rfl, rfl⟩, Nat.zero_le 16, rfl⟩
  | fr => exact ⟨⟨rfl, rfl, rfl⟩, .inl ⟨rfl, rfl, rfl, rfl⟩⟩
  | iv => exact inverseRuns_iff.2 ⟨rfl, b, (accLoad_extracted a b).toDivided⟩
  | bad => exact ⟨rfl, rfl⟩

theorem commandRuns_scalar (hop : s.op = .fs) : CommandRuns s ↔ ScalarRuns s := by rw [CommandRuns, hop]
theorem commandRuns_batch (hop : s.op = .fb) : CommandRuns s ↔ BatchRuns s := by rw [CommandRuns, hop]
theorem commandRuns_recur (hop : s.op = .fr) : CommandRuns s ↔ RecurRuns s := by rw [CommandRuns, hop]
theorem commandRuns_inverse (hop : s.op = .iv) : CommandRuns s ↔ InverseRuns s := by rw [CommandRuns, hop]
theorem commandRuns_bad (hop : s.op = .bad) : CommandRuns s ↔ InvalidRuns s := by rw [CommandRuns, hop]

/-- Every sequencer step keeps the invariant of a running machine (R35). -/
theorem seqStep_inv (hrun : s.phase = .run) (hs : s.Inv) : (seqStep s).Inv := by
  obtain ⟨hrsp, hrunning⟩ := hs
  obtain ⟨hvalid, hcommand⟩ := hrunning hrun
  have hruns : (seqStep s).rsp = s.rsp → CommandRuns (seqStep s) → (seqStep s).Inv := fun hsame hnext =>
    ⟨hsame ▸ hrsp, fun _ => ⟨hsame ▸ hvalid, hnext⟩⟩
  rcases seqStep_cases s with ⟨hop, h⟩ | ⟨hop, hlt, h⟩ | ⟨hop, hlt, h⟩ | ⟨hop, hidx, h⟩ | ⟨hop, hidx, hdreg, h⟩ |
    ⟨hop, hgo, h⟩ | ⟨hop, -, h⟩ | ⟨⟨hop | hop, -⟩ | ⟨hop, -, -⟩, h⟩ <;> rw [h] at hruns ⊢
  · exact ((commandRuns_bad hop).1 hcommand).raiseError_inv
  · exact hruns rfl ((commandRuns_scalar (s := fsStep s) hop).2 (((commandRuns_scalar hop).1 hcommand).fsStep hlt))
  · exact hruns rfl ((commandRuns_batch (s := fbStep s) hop).2 (((commandRuns_batch hop).1 hcommand).fbStep hlt))
  · exact hruns rfl ((commandRuns_recur (s := frBaseStep s) hop).2 (((commandRuns_recur hop).1 hcommand).frBaseStep hidx))
  · exact hruns rfl ((commandRuns_recur (s := frStep s) hop).2 (((commandRuns_recur hop).1 hcommand).frStep hidx hdreg))
  · exact hruns rfl ((commandRuns_inverse (s := ivStep s) hop).2 (((commandRuns_inverse hop).1 hcommand).ivStep hgo))
  · exact ((commandRuns_inverse hop).1 hcommand).ivFinish_inv
  · exact ((commandRuns_scalar hop).1 hcommand).toForwardQuiet.complete_inv
  · exact ((commandRuns_batch hop).1 hcommand).toForwardQuiet.complete_inv
  · exact ((commandRuns_recur hop).1 hcommand).toForwardQuiet.complete_inv

end invariant

/-- Settles O52: the reset state is idle with no valid response. -/
theorem resetSatisfiesInvariant : Obligations.ResetSatisfiesInvariant :=
  inv_of_idle rfl (responseOk_of_invalid rfl (.inl rfl))

/-- Settles O54: reset and acceptance leave no valid response, acceptance establishes the loop invariant, and each sequencer
step keeps it or completes. -/
theorem transitionKeepsInvariant : Obligations.TransitionKeepsInvariant := by
  intro s hs
  cases hrst : s.ports.rst with
  | true =>
    rw [tick_of_reset hrst]
    exact inv_of_idle rfl (responseOk_of_invalid rfl (.inl rfl))
  | false =>
    cases hphase : s.phase with
    | run =>
      rw [tick_of_running hrst hphase]
      exact seqStep_inv hphase hs
    | idle =>
      cases hv : s.ports.reqValid with
      | false =>
        rw [tick_of_ready_no_request ⟨hphase, hrst⟩ hv]
        exact hs
      | true =>
        rw [tick_of_ready_request ⟨hphase, hrst⟩ hv]
        exact ⟨responseOk_of_invalid rfl hs.response.status_legal, fun _ => ⟨rfl, accept_commandRuns _ _ _ s⟩⟩

end Sys2Proof.Machine
end

section
namespace Sys2Proof.Machine

/-- `n` sequencer steps lead from a running machine, not under reset, to a state; before the last of them it runs on. -/
inductive Reaches : Nat → State → State → Prop
  | refl (s : State) : Reaches 0 s s
  | head {n : Nat} {s t : State} (hrun : s.phase = .run) (hrst : s.ports.rst = false) (hrest : Reaches n (seqStep s) t) :
      Reaches (n + 1) s t

namespace Reaches
variable {m n : Nat} {s t u : State}

theorem trans (hst : Reaches m s t) (htu : Reaches n t u) : Reaches (n + m) s u := by
  induction hst with
  | refl => exact htu
  | head hrun hrst _ ih => exact .head hrun hrst (ih htu)

/-- One further sequencer step at the end. -/
theorem tail (hst : Reaches n s t) (hrun : t.phase = .run) (hrst : t.ports.rst = false) (hu : seqStep t = u) :
    Reaches (n + 1) s u := by
  have hlast : Reaches 1 t u := .head hrun hrst (hu ▸ .refl _)
  rw [Nat.add_comm]
  exact hst.trans hlast

/-- The steps are the hardware's transitions (R34). -/
theorem ticks_eq (h : Reaches n s t) : ticks n s = t := by
  induction h with
  | refl => rfl
  | head hrun hrst _ ih => rw [ticks, tick_of_running hrst hrun, ih]

/-- Before the last step the machine runs and the response registers show what they showed at the start (R36, R238). -/
theorem quiet (h : Reaches n s t) (hm : m < n) : (ticks m s).phase = .run ∧ (ticks m s).rsp = s.rsp := by
  induction h generalizing m with
  | refl => exact absurd hm m.not_lt_zero
  | head hrun hrst _ ih =>
    cases m with
    | zero => exact ⟨hrun, rfl⟩
    | succ m =>
      rw [ticks, tick_of_running hrst hrun]
      obtain ⟨hphase, hrsp⟩ := ih (Nat.lt_of_succ_lt_succ hm)
      obtain ⟨hnext, -⟩ := ih (Nat.zero_lt_of_lt (Nat.lt_of_succ_lt_succ hm))
      refine ⟨hphase, hrsp.trans ?_⟩
      rcases seqStep_phase_cases _ with ⟨-, hsame⟩ | ⟨hidle, -⟩
      · exact hsame
      · cases hidle.symm.trans hnext

end Reaches

/-- A forward command's acceptance takes nothing from `REQ_B` (R36, U6). -/
theorem accept_ignores_b {op : Op} (hop : op ≠ .iv) (a b b' : Word) (s : State) : accept op a b s = accept op a b' s := by
  simp only [accept, if_neg hop]

theorem ofNat_toNat_of_lt {g : Nat} (hg : g < 256) : (BitVec.ofNat 8 g).toNat = g := by
  rw [BitVec.toNat_ofNat, Nat.mod_eq_of_lt hg]

section commands
variable {s : State}

/-- FWD.SCALAR takes its 16 passes and the completion (R240). -/
theorem scalar_reaches (hrst : s.ports.rst = false) (d b : Word) :
    Reaches 17 (accept .fs d b s)
      (complete { accept .fs d b s with acc := (fwdScalarLoop d).1, scale := (fwdScalarLoop d).2, idx := 16 }) := by
  have hloop : Reaches 16 (accept .fs d b s)
      { accept .fs d b s with acc := (fwdScalarLoop d).1, scale := (fwdScalarLoop d).2, idx := 16 } := by
    refine foldl_range_induction (P := fun g (r : Acc × Word) => Reaches g (accept .fs d b s)
      { accept .fs d b s with acc := r.1, scale := r.2, idx := BitVec.ofNat 8 g }) 16 (.refl _) fun g r hg hr => ?_
    have hidx := ofNat_toNat_of_lt (g := g) (by omega)
    refine hr.tail rfl hrst ?_
    rw [seqStep_scalar_pass rfl (show (BitVec.ofNat 8 g).toNat < 16 by omega), fsStep, hidx, BitVec.ofNat_add]
    rfl
  exact hloop.tail rfl hrst (seqStep_scalar_done rfl le_rfl)

/-- FWD.BATCH takes its 16 passes and the completion (R240). -/
theorem batch_reaches (hrst : s.ports.rst = false) (d b : Word) :
    Reaches 17 (accept .fb d b s) (complete { accept .fb d b s with acc := fwdBatchLoop d, idx := 16 }) := by
  have hloop : Reaches 16 (accept .fb d b s) { accept .fb d b s with acc := fwdBatchLoop d, idx := 16 } := by
    refine foldl_range_induction (P := fun g (a : Acc) => Reaches g (accept .fb d b s)
      { accept .fb d b s with acc := a, idx := BitVec.ofNat 8 g }) 16 (.refl _) fun g a hg ha => ?_
    have hidx := ofNat_toNat_of_lt (g := g) (by omega)
    refine ha.tail rfl hrst ?_
    rw [seqStep_batch_pass rfl (show (BitVec.ofNat 8 g).toNat < 16 by omega), fbStep, hidx, BitVec.ofNat_add]
    rfl
  exact hloop.tail rfl hrst (seqStep_batch_done rfl le_rfl)

/-- The registers with FWD.RECUR's working values written into them (R30). -/
def State.withRecurrence (s : State) (r : Recurrence) : State :=
  { s with pwrRe := r.pr, pwrIm := r.pi, dreg := r.rem, acc := r.acc, idx := BitVec.ofNat 8 r.k }

theorem withRecurrence_recurrenceOf (s : State) : s.withRecurrence (recurrenceOf s) = s := by
  simp [State.withRecurrence, recurrenceOf]

/-- The loop of FWD.RECUR takes one sequencer step for each position it advances (R240). -/
theorem frLoop_reaches (n : Nat) (hrun : s.phase = .run) (hrst : s.ports.rst = false) (hop : s.op = .fr)
    (hpos : 0 < s.idx.toNat) (hn : s.idx.toNat + n ≤ 128) :
    ∃ m, (frLoop n (recurrenceOf s)).k = m + s.idx.toNat ∧
      Reaches m s (s.withRecurrence (frLoop n (recurrenceOf s))) := by
  induction n generalizing s with
  | zero => exact ⟨0, (Nat.zero_add _).symm, by rw [frLoop, withRecurrence_recurrenceOf]; exact .refl s⟩
  | succ n ih =>
    rw [frLoop]
    split
    case isTrue => exact ⟨0, (Nat.zero_add _).symm, by rw [withRecurrence_recurrenceOf]; exact .refl s⟩
    case isFalse hmore =>
      have hidx : s.idx ≠ 0 := fun h => by rw [h] at hpos; exact absurd hpos (by decide)
      have hlt : s.idx.toNat < 128 := by omega
      have hnext : (frStep s).idx.toNat = s.idx.toNat + 1 := idx_add_one_toNat hlt
      obtain ⟨m, hk, hreach⟩ := ih (s := frStep s) hrun hrst hop (by omega) (by omega)
      rw [recurrenceOf_frStep hlt] at hk hreach
      rw [← seqStep_recur_iteration hop hidx hmore] at hreach
      refine ⟨m + 1, by rw [hk, hnext]; omega, .head hrun hrst ?_⟩
      rw [seqStep_recur_iteration hop hidx hmore] at hreach ⊢
      exact hreach

/-- FWD.RECUR takes its base cases, an iteration for each digit from position 2 on, and the completion (R240). -/
theorem recur_reaches (hrst : s.ports.rst = false) (d b : Word) :
    Reaches (2 + (bitlen d - 2)) (accept .fr d b s)
      (complete ((accept .fr d b s).withRecurrence (fwdRecurLoop d))) := by
  have hbase : Reaches 1 (accept .fr d b s) (frBaseStep (accept .fr d b s)) :=
    (Reaches.refl _).tail rfl hrst (seqStep_recur_base rfl rfl)
  obtain ⟨m, hk, hloop⟩ := frLoop_reaches (s := frBaseStep (accept .fr d b s)) 126 rfl hrst rfl
    (show 0 < 2 by norm_num) (show 2 + 126 ≤ 128 by norm_num)
  rw [recurrenceOf_frBaseStep ⟨rfl, rfl, rfl, rfl⟩] at hk hloop
  change (fwdRecurLoop d).k = m + 2 at hk
  rw [fwdRecurLoop_k] at hk
  have hdone := (hbase.trans hloop).tail rfl hrst (seqStep_recur_done rfl ?_ (fwdRecurLoop_rem d))
  · rw [show 2 + (bitlen d - 2) = m + 1 + 1 by omega]
    exact hdone
  · intro hzero
    have hlen := bitlen_le d
    have htoNat : (BitVec.ofNat 8 (fwdRecurLoop d).k).toNat = 0 := congrArg BitVec.toNat hzero
    rw [fwdRecurLoop_k, ofNat_toNat_of_lt (by omega)] at htoNat
    omega

/-- The registers with INV's working values written into them (R30). -/
def State.withExtraction (s : State) (r : Extraction) : State :=
  { s with acc := r.acc, qreg := r.q, idx := BitVec.ofNat 8 r.i }

theorem withExtraction_extractionOf (s : State) : s.withExtraction (extractionOf s) = s := by
  simp [State.withExtraction, extractionOf]

/-- The loop of INV takes one sequencer step for each iteration (R240). -/
theorem ivLoop_reaches (n : Nat) (hrun : s.phase = .run) (hrst : s.ports.rst = false) (hop : s.op = .iv) :
    ∃ m, (ivLoop n (extractionOf s)).i = m + s.idx.toNat ∧
      Reaches m s (s.withExtraction (ivLoop n (extractionOf s))) := by
  induction n generalizing s with
  | zero => exact ⟨0, (Nat.zero_add _).symm, by rw [ivLoop, withExtraction_extractionOf]; exact .refl s⟩
  | succ n ih =>
    rw [ivLoop]
    split
    case isFalse => exact ⟨0, (Nat.zero_add _).symm, by rw [withExtraction_extractionOf]; exact .refl s⟩
    case isTrue hgo =>
      obtain ⟨hlt, -, -⟩ := (ivContinues_iff _).1 hgo
      have hnext : (ivStep s).idx.toNat = s.idx.toNat + 1 := idx_add_one_toNat hlt
      obtain ⟨m, hi, hreach⟩ := ih (s := ivStep s) hrun hrst hop
      rw [extractionOf_ivStep hlt] at hi hreach
      refine ⟨m + 1, by rw [hi, hnext]; omega, .head hrun hrst ?_⟩
      rw [seqStep_inverse_iteration hop hgo]
      exact hreach

/-- INV takes its iterations and the final test (R240). -/
theorem inverse_reaches (hrst : s.ports.rst = false) (re im : Word) :
    Reaches ((invLoop re im).i + 1) (accept .iv re im s)
      (ivFinish ((accept .iv re im s).withExtraction (invLoop re im))) := by
  obtain ⟨m, hi, hloop⟩ := ivLoop_reaches (s := accept .iv re im s) 128 rfl hrst rfl
  change (invLoop re im).i = m at hi
  rw [hi]
  refine hloop.tail rfl hrst (seqStep_inverse_done rfl ?_)
  have hstop := (invLoop_extractionInv re im).2
  rw [extractionOf]
  change ivContinues ⟨(invLoop re im).acc, (invLoop re im).q, (BitVec.ofNat 8 (invLoop re im).i).toNat⟩ = false
  rw [invLoop_idx_toNat]
  exact hstop

/-- A request taken as one step is acceptance and the run of its sequencer steps (R12, R240). -/
theorem step_reaches (hs : s.Ready) (hv : s.ports.reqValid = true) :
    ∃ t, step s = .next t ∧ Reaches (stepCount (sampleRequest s)) (acceptPorts s) t := by
  have hrst := hs.2
  rcases request_cases (sampleRequest s) with ⟨hr, hop⟩ | ⟨hr, hop⟩ | ⟨hr, hop⟩ | ⟨hr, hop⟩ | ⟨-, hop⟩ <;>
    rw [acceptPorts, show decodeOp s.ports.reqCmd = _ from hop, stepCount, hop]
  · refine ⟨_, step_of_decoded (i := .fwdScalar s.ports.reqA) hs hv (hr ▸ decode_scalar_word _ _), ?_⟩
    rw [accept_ignores_b (by decide) _ _ 0]
    exact scalar_reaches hrst _ _
  · refine ⟨_, step_of_decoded (i := .fwdBatch s.ports.reqA) hs hv (hr ▸ decode_batch_word _ _), ?_⟩
    rw [accept_ignores_b (by decide) _ _ 0]
    exact batch_reaches hrst _ _
  · refine ⟨_, step_of_decoded (i := .fwdRecur s.ports.reqA) hs hv (hr ▸ decode_recur_word _ _), ?_⟩
    rw [accept_ignores_b (by decide) _ _ 0]
    exact recur_reaches hrst _ _
  · exact ⟨_, step_of_decoded (i := .inv s.ports.reqA s.ports.reqB) hs hv (hr ▸ decode_inverse_word _ _),
      inverse_reaches hrst _ _⟩
  · exact ⟨_, step_of_bad hs hv hop, (Reaches.refl _).tail rfl hrst (seqStep_bad rfl)⟩

end commands

theorem ticks_add (m n : Nat) (s : State) : ticks (m + n) s = ticks n (ticks m s) := by
  induction m generalizing s with
  | zero => rw [Nat.zero_add]; rfl
  | succ m ih => rw [Nat.succ_add, ticks, ih, ticks]

/-- The first transition of a ready machine with a request presented is its acceptance. -/
theorem ticks_one_add {s : State} (hs : s.Ready) (hv : s.ports.reqValid = true) (n : Nat) :
    ticks (1 + n) s = ticks n (acceptPorts s) := by
  rw [Nat.add_comm, ticks, tick_of_ready_request hs hv]

/-- Settles O45: each command's loop is the run of its sequencer steps, and before the last of these it runs on. -/
theorem commandIsRunOfSteps : Obligations.CommandIsRunOfSteps := by
  intro s hs hv
  obtain ⟨t, ht, hreach⟩ := step_reaches hs hv
  refine ⟨by rw [ht, ticks_one_add hs hv, hreach.ticks_eq], fun n hn => ?_⟩
  rw [ticks_one_add hs hv]
  exact hreach.quiet hn

/-- What every transition keeps, any number of them keep. -/
theorem ticks_inv {s : State} (hs : s.Inv) (n : Nat) : (ticks n s).Inv := by
  induction n generalizing s with
  | zero => exact hs
  | succ n ih => exact ih (transitionKeepsInvariant s hs)

/-- Every step is a number of transitions (R12). -/
theorem step_eq_ticks (s : State) : ∃ n, step s = .next (ticks n s) := by
  cases hrst : s.ports.rst with
  | true => exact ⟨1, by rw [step_of_reset hrst, ticks, tick_of_reset hrst]; rfl⟩
  | false =>
    cases hphase : s.phase with
    | run => exact ⟨1, by rw [step_of_running hrst hphase, ticks, tick_of_running hrst hphase]; rfl⟩
    | idle =>
      cases hv : s.ports.reqValid with
      | false => exact ⟨0, step_of_no_request ⟨hphase, hrst⟩ hv⟩
      | true => exact ⟨_, (commandIsRunOfSteps s ⟨hphase, hrst⟩ hv).1⟩

/-- Settles O53: every step is a run of transitions, each of which keeps the invariant. -/
theorem stepKeepsInvariant : Obligations.StepKeepsInvariant := by
  intro s t hs ht
  obtain ⟨n, hn⟩ := step_eq_ticks s
  rw [hn] at ht
  cases ht
  exact ticks_inv hs n

section stepCount
variable {r : Request}

theorem stepCount_bad (h : decodeOp r.cmd = .bad) : stepCount r = 1 := by rw [stepCount, h]

theorem stepCount_scalar (h : decodeOp r.cmd = .fs) : stepCount r = 17 := by rw [stepCount, h]

theorem stepCount_batch (h : decodeOp r.cmd = .fb) : stepCount r = 17 := by rw [stepCount, h]

theorem stepCount_recur (h : decodeOp r.cmd = .fr) : stepCount r = 2 + (bitlen r.a - 2) := by rw [stepCount, h]

theorem stepCount_inverse (h : decodeOp r.cmd = .iv) : stepCount r = (invLoop r.a r.b).i + 1 := by rw [stepCount, h]

end stepCount

/-- Settles O46: the loops' iterations number at most 126 and 128, and INV's exit says how many it made. -/
theorem stepCountsBounded : Obligations.StepCountsBounded := by
  refine ⟨fun r => ?_, fun r => stepCount_bad, fun r h => h.elim stepCount_scalar stepCount_batch, fun r h => ?_,
    fun r s t h ht => ?_⟩
  · have hlen := bitlen_le r.a
    have hidx := (invLoop_extracted r.a r.b).idx_le
    cases h : decodeOp r.cmd with
    | fs => rw [stepCount_scalar h]; norm_num
    | fb => rw [stepCount_batch h]; norm_num
    | fr => rw [stepCount_recur h]; omega
    | iv => rw [stepCount_inverse h]; omega
    | bad => rw [stepCount_bad h]; norm_num
  · have hlen := bitlen_le r.a
    rw [stepCount_recur h]
    omega
  · rw [exec_inv] at ht
    cases ht
    have hr := invLoop_extracted r.a r.b
    have hlen := bitlen_le (invLoop r.a r.b).q
    rw [stepCount_inverse h]
    refine ⟨fun hstatus => ?_, fun hstatus => ?_, fun _ => by rw [invLoop_idx_toNat]⟩ <;>
      rcases invLoop_exits r.a r.b with ⟨hacc, hexit⟩ | ⟨-, -, hcap, hexit⟩ | ⟨-, -, hexit⟩
    · change _ = (BitVec.ofNat 8 (bitlen (invLoop r.a r.b).q)).toNat + 1
      rw [ofNat_toNat_of_lt (by omega), ← hr.length_eq (by rw [hacc]; rfl)]
    · exact absurd (hexit.symm.trans hstatus) (by decide)
    · exact absurd (hexit.symm.trans hstatus) (by decide)
    · exact absurd (hexit.symm.trans hstatus) (by decide)
    · rw [hcap]
    · exact absurd (hexit.symm.trans hstatus) (by decide)

end Sys2Proof.Machine
end

section
namespace Sys2Proof.Machine

/-- The response of a request (R87, R205). -/
def requestAnswer (r : Request) : Response :=
  match decodeOp r.cmd with
  | .fs => forwardAnswer r.a
  | .fb => forwardAnswer r.a
  | .fr => forwardAnswer r.a
  | .iv => inverseAnswer (invLoop r.a r.b)
  | .bad => ⟨true, 0x01, 0, 0, 0, 0⟩

/-- Only INV reads `REQ_B` (R22, U6). -/
theorem requestAnswer_ignores_b {r : Request} (hdir : cmdDir r.cmd = false) (b : Word) :
    requestAnswer { r with b := b } = requestAnswer r := by
  have hop : decodeOp r.cmd ≠ .iv := by
    rw [decodeOp_of_forward hdir]
    split_ifs <;> decide
  rw [requestAnswer, requestAnswer]
  cases h : decodeOp r.cmd with
  | iv => exact absurd h hop
  | _ => rfl

theorem requestAnswer_valid (r : Request) : (requestAnswer r).valid = true := by
  rw [requestAnswer]
  split <;> rfl

/-- A ready machine answers a presented request and is ready again (R237). -/
theorem step_answers {s : State} (hs : s.Ready) (hv : s.ports.reqValid = true) :
    ∃ t, step s = .next t ∧ t.rsp = requestAnswer (sampleRequest s) ∧ t.Ready := by
  have hready : ∀ {i t}, exec i s = .next t → t.Ready := fun h => by
    obtain ⟨hports, -, hidle, -⟩ := exec_keeps h
    exact ⟨hidle, by rw [hports]; exact hs.2⟩
  have hforward : ∀ {i}, decode (sampleRequest s) = .ok i →
      (i = .fwdScalar (sampleRequest s).a ∨ i = .fwdBatch (sampleRequest s).a ∨ i = .fwdRecur (sampleRequest s).a) →
      ∃ t, step s = .next t ∧ t.rsp = forwardAnswer (sampleRequest s).a ∧ t.Ready := fun hd hi => by
    obtain ⟨t, ht, hrsp⟩ := exec_forward hi s
    exact ⟨t, (step_of_decoded hs hv hd).trans ht, hrsp, hready ht⟩
  rcases request_cases (sampleRequest s) with ⟨hr, hop⟩ | ⟨hr, hop⟩ | ⟨hr, hop⟩ | ⟨hr, hop⟩ | ⟨-, hop⟩ <;>
    rw [requestAnswer, hop]
  · exact hforward (hr ▸ decode_scalar_word _ _) (.inl rfl)
  · exact hforward (hr ▸ decode_batch_word _ _) (.inr (.inl rfl))
  · exact hforward (hr ▸ decode_recur_word _ _) (.inr (.inr rfl))
  · have hd : decode (sampleRequest s) = .ok (.inv _ _) := hr ▸ decode_inverse_word _ _
    exact ⟨_, (step_of_decoded hs hv hd).trans (exec_inv _ _ s), rfl, hready (exec_inv _ _ s)⟩
  · exact ⟨_, invalidVariantResponse s hs hv hop, rfl, rfl, hs.2⟩

/-- The host gets a request's response from any ready machine, and finds it ready again. -/
theorem issue_answers {s : State} (hs : s.Ready) (r : Request) :
    ∃ t, issue r s = some (t, requestAnswer r) ∧ t.rsp = requestAnswer r ∧ t.Ready := by
  have hdrive : (s.drive r).Ready := hs
  obtain ⟨t, ht, hrsp, hready⟩ := step_answers hdrive rfl
  rw [drive_request] at hrsp
  refine ⟨t, ?_, hrsp, hready⟩
  have hread := hostRead_valid t (by rw [hrsp]; exact requestAnswer_valid r)
  simp only [issue, ht, hread, hrsp]

/-- So the response is a function of the request. -/
theorem issue_response {s : State} (hs : s.Ready) (r : Request) :
    (issue r s).map Prod.snd = some (requestAnswer r) := by
  obtain ⟨t, ht, -, -⟩ := issue_answers hs r
  rw [ht]
  rfl

/-- Settles O47: both machines give the response that the request alone determines. -/
theorem responseDependsOnRequest : Obligations.ResponseDependsOnRequest := by
  refine ⟨fun s s' r hs hs' => ?_, fun s r b hs hdir => ?_⟩
  · obtain ⟨t, ht, hrsp, -⟩ := issue_answers hs r
    obtain ⟨t', ht', hrsp', -⟩ := issue_answers hs' r
    exact ⟨t, t', _, ht, ht', hrsp, hrsp'⟩
  · rw [issue_response hs, issue_response hs, ← requestAnswer_ignores_b hdir b]

/-- A program's responses are those of its requests, one by one (R241). -/
theorem runProgram_eq (program : List Request) {s : State} (hs : s.Ready) :
    runProgram program s = some (program.map requestAnswer) := by
  induction program generalizing s with
  | nil => rfl
  | cons r rest ih =>
    obtain ⟨t, ht, -, hready⟩ := issue_answers hs r
    simp only [runProgram, ht, ih hready]
    rfl

/-- Settles O48: each request leaves the machine ready, and its response does not depend on the state before it. -/
theorem programResponsesIndependent : Obligations.ProgramResponsesIndependent := by
  intro program s hs
  have halone : (fun r => (issue r State.reset).map Prod.snd) = fun r => some (requestAnswer r) :=
    funext fun r => issue_response ⟨rfl, rfl⟩ r
  rw [runProgram_eq program hs, halone]
  exact (List.mapM_pure (m := Option)).symm

/-- No transition but the reset event touches the ports or the free-value counter. -/
theorem tick_keeps {s : State} (hrst : s.ports.rst = false) :
    (tick s).ports = s.ports ∧ (tick s).freeCount = s.freeCount := by
  cases hphase : s.phase with
  | run =>
    rw [tick_of_running hrst hphase]
    exact seqStep_keeps s
  | idle =>
    cases hv : s.ports.reqValid with
    | false => rw [tick_of_ready_no_request ⟨hphase, hrst⟩ hv]; exact ⟨rfl, rfl⟩
    | true => rw [tick_of_ready_request ⟨hphase, hrst⟩ hv]; exact ⟨rfl, rfl⟩

theorem ticks_keeps {s : State} (hrst : s.ports.rst = false) (n : Nat) :
    (ticks n s).ports = s.ports ∧ (ticks n s).freeCount = s.freeCount := by
  induction n generalizing s with
  | zero => exact ⟨rfl, rfl⟩
  | succ n ih =>
    obtain ⟨hports, hcount⟩ := tick_keeps hrst
    obtain ⟨hports', hcount'⟩ := ih (s := tick s) (by rw [hports]; exact hrst)
    exact ⟨hports'.trans hports, hcount'.trans hcount⟩

/-- Settles O49: a reset event reads the ports and the counter only, and no transition before it changed the counter. -/
theorem resetAbandonsCommand : Obligations.ResetAbandonsCommand := by
  intro s n p hrst hp
  have hreset : ∀ u : State, tick { u with ports := p } = resetEvent { u with ports := p } :=
    fun u => tick_of_reset hp
  have hsame : resetEvent { ticks n s with ports := p } = resetEvent { s with ports := p } :=
    resetEvent_congr rfl (ticks_keeps hrst n).2
  rw [hreset, hreset, hsame]
  exact ⟨rfl, (step_of_reset hp).trans (congrArg _ hsame), rfl, rfl, rfl⟩

end Sys2Proof.Machine
end
